-- ==== Sys2Proof/Word.lean ====
section
/-!
DEFINITION. The word types of 00_scope.md R10: a byte is 8 bits, `u16`, `u32` and `u64` are unsigned words of
16, 32 and 64 bits. No value of this block is signed.
-/

namespace Sys2Proof

/-- R10: a byte, unsigned, 0..255. -/
abbrev Byte := BitVec 8

/-- R10: `u16`. -/
abbrev U16 := BitVec 16

/-- R10: `u32`. -/
abbrev U32 := BitVec 32

/-- R10: `u64`. -/
abbrev U64 := BitVec 64

end Sys2Proof
end

