-- ==== Sys2Proof/Machine/Bytes.lean ====
section
/-!
DEFINITION. The byte-order functions of 00_scope.md R10: little-endian assembly and its inverse.
-/

namespace Sys2Proof.Machine

/-- R10: `LE16`, `LE32`, `LE64` and any other length: the sum of `b_i * 256^i`. -/
def leNat : List Byte → Nat
  | [] => 0
  | b :: rest => b.toNat + 256 * leNat rest

/-- R10: `bytesLE_n(v)`, the n-byte little-endian sequence of v. -/
def bytesLE : Nat → Nat → List Byte
  | 0, _ => []
  | n + 1, v => BitVec.ofNat 8 v :: bytesLE n (v / 256)

/-- The `n` bytes of a sequence from offset `off`: a field of an operand layout (R78). -/
def bytesAt (bytes : List Byte) (off n : Nat) : List Byte := (bytes.drop off).take n

end Sys2Proof.Machine
end

