-- ==== Sys2Proof/Config.lean ====
section
/-!
DEFINITION. What an implementation of the block fixes (00_scope.md R8): the parameters, as one record of plain data,
and what makes a choice of them legal. The parameters are arguments of the model: `State` carries them in its field
`cfg` (log 1), so a statement over all states holds for every choice. Also the free values, constants without a body.
-/

namespace Sys2Proof

/-- R26: the transport mode. -/
inductive TransportMode where
  | tristate
  | jtag
  | icsp
  deriving DecidableEq, Repr

/-- R32, R75: the pins of the GPIO driver. -/
inductive Pin where
  | tms
  | tck
  | tdi
  | tdo
  | mclr
  deriving DecidableEq, Repr

/-- R75: a pin's direction. -/
inductive Direction where
  | input
  | output
  deriving DecidableEq, Repr

/-- R76: a driven level. -/
inductive Level where
  | low
  | high
  deriving DecidableEq, Repr

/-- R78: the byte layout of SEND's 28 operand bytes. -/
inductive SendLayout where
  | l8x64
  | l32x32
  deriving DecidableEq, Repr

/-- R83: the names of the TAP commands. DESIGN CHOICE (log 44): R8 and D18 leave `ETAP_SELECT_SET` open, and no rule says
that R83's nine default names are all there are; the model's names, and so the members a set can have, are these nine. -/
inductive TapCommand where
  | mtapIdcode
  | tapSwMtap
  | tapSwEtap
  | mtapCommand
  | etapAddress
  | etapData
  | etapControl
  | etapEjtagboot
  | etapFastdata
  deriving DecidableEq, Repr

/-- R134: the two families of TAP commands. -/
inductive Family where
  | mtap
  | etap
  deriving DecidableEq, Repr

/-- R70: the nine opcodes. -/
inductive Opcode where
  | getInfo
  | setSpeed
  | setProgMode
  | setPinIoMode
  | setPinWrite
  | setPinRead
  | send
  | xferInstruction
  | getPeResponse
  deriving DecidableEq, Repr

/-- R84: a TMS header or footer, the pair (nbits, value). -/
structure TmsShape where
  nbits : Nat
  value : U64
  deriving DecidableEq, Repr

/-- R71: `OPCODE_ID` of every opcode but GET_INFO, whose ID the source fixes. -/
structure OpcodeIds where
  setSpeed : Byte
  setProgMode : Byte
  setPinIoMode : Byte
  setPinWrite : Byte
  setPinRead : Byte
  send : Byte
  xferInstruction : Byte
  getPeResponse : Byte
  deriving DecidableEq, Repr

/-- R74: `MODE_CODE`. -/
structure ModeCodes where
  tristate : Byte
  jtag : Byte
  icsp : Byte
  deriving DecidableEq, Repr

/-- R75: `PIN_CODE`. -/
structure PinCodes where
  tms : Byte
  tck : Byte
  tdi : Byte
  tdo : Byte
  mclr : Byte
  deriving DecidableEq, Repr

/-- R75: `DIR_CODE`. -/
structure DirCodes where
  input : Byte
  output : Byte
  deriving DecidableEq, Repr

/-- R83: `CODE`, the 5-bit code of each TAP command. -/
structure TapCodes where
  mtapIdcode : BitVec 5
  tapSwMtap : BitVec 5
  tapSwEtap : BitVec 5
  mtapCommand : BitVec 5
  etapAddress : BitVec 5
  etapData : BitVec 5
  etapControl : BitVec 5
  etapEjtagboot : BitVec 5
  etapFastdata : BitVec 5
  deriving DecidableEq, Repr

/-- How many maximal runs of non-zero bytes a sequence holds; `inRun` says whether the byte before it was non-zero. -/
def nonzeroRuns : Bool → List Byte → Nat
  | _, [] => 0
  | inRun, b :: rest =>
    if b = 0 then nonzeroRuns false rest
    else (if inRun then 0 else 1) + nonzeroRuns true rest

/-- The fewest strings, each followed by at least one 0x00 byte, that a sequence can be read as: its non-zero runs, and an
empty string before a 0x00 byte at its start. (The most is its number of 0x00 bytes.) -/
def fewestStrings (bytes : List Byte) : Nat :=
  (if bytes.head? = some 0 then 1 else 0) + nonzeroRuns false bytes

/-- R12: four strings, each followed by at least one 0x00 byte, zero-padded (Laws/Info.lean's infoLayout_iff says that it
is this; an empty string is its 0x00 bytes alone: log 40). -/
def infoLayout (bytes : List Byte) : Bool :=
  (bytes.getLast? == some 0) && decide (fewestStrings bytes ≤ 4) && decide (4 ≤ bytes.count 0)

/-- R12: one device-info block, 128 bytes with the layout the spec gives them. -/
structure InfoBlock where
  bytes : Vector Byte 128 := Vector.replicate 128 0
  layout : infoLayout bytes.toList = true := by decide +kernel
  deriving DecidableEq, Repr, Inhabited

/-- R8: the parameters of the model. -/
structure Params where
  /-- `N_CMDIN` is 2 to this power (D2). -/
  cmdInLog : Nat
  /-- `N_CMDOUT` is 2 to this power (D2). -/
  cmdOutLog : Nat
  /-- `OPCODE_ID` (D3). -/
  ids : OpcodeIds
  /-- `MARK_PACKET` (D4). -/
  markPacket : Byte
  /-- `MARK_INFO` (D4). -/
  markInfo : Byte
  /-- `MODE_CODE` (D7). -/
  modeCodes : ModeCodes
  /-- `PIN_CODE` (D8). -/
  pinCodes : PinCodes
  /-- `DIR_CODE` (D8). -/
  dirCodes : DirCodes
  /-- `SEND_LAYOUT` (D6). -/
  sendLayout : SendLayout
  /-- `FAIL_SENTINEL` (D21). -/
  failSentinel : U64
  /-- `PRACC_BIT` (D22). -/
  praccBit : Nat
  /-- `PROBEN_BIT` (D22). -/
  probenBit : Nat
  /-- `CONTROL_POLL_WORD` (D23). -/
  controlPollWord : U32
  /-- `CONTROL_REARM_WORD` (D23). -/
  controlRearmWord : U32
  /-- `PE_READ_TDI_WORD` (D25). -/
  peReadTdiWord : U32
  /-- `CODE(name)` (D18). -/
  codes : TapCodes
  /-- `ETAP_SELECT_SET` (D18). -/
  etapSelectSet : List TapCommand
  /-- `HDR_CMD(MTAP)` (D20). -/
  hdrCmdMtap : TmsShape
  /-- `HDR_CMD(ETAP)` (D20). -/
  hdrCmdEtap : TmsShape
  /-- `FTR_CMD(MTAP)` (D20). -/
  ftrCmdMtap : TmsShape
  /-- `FTR_CMD(ETAP)` (D20). -/
  ftrCmdEtap : TmsShape
  /-- `HDR_DATA` (D20). -/
  hdrData : TmsShape
  /-- `FTR_DATA` (D20). -/
  ftrData : TmsShape
  /-- `TRISTATE_CAPTURE` (D16). -/
  tristateCapture : U64
  /-- `PE_SETTLE_TICKS` (D26). -/
  peSettleTicks : Nat
  /-- `INFO_BLOCK(Tristate)` (D27). -/
  infoTristate : InfoBlock
  /-- `INFO_BLOCK(JTAG)` (D27). -/
  infoJtag : InfoBlock
  /-- `INFO_BLOCK(ICSP)` (D27). -/
  infoIcsp : InfoBlock
  /-- `TICK_WIDTH` (D35); the model is untimed (R176) and reads it nowhere. -/
  tickWidth : Nat
  deriving DecidableEq, Repr

/-- R8, R16: `N_CMDIN`, a power of two by construction. -/
def Params.nCmdIn (p : Params) : Nat := 2 ^ p.cmdInLog

/-- R8, R17: `N_CMDOUT`, a power of two by construction. -/
def Params.nCmdOut (p : Params) : Nat := 2 ^ p.cmdOutLog

/-- R71: the ID of GET_INFO, which the source fixes. -/
def getInfoId : Byte := 0x01

/-- R71: the nine opcode IDs, in the order of the table. -/
def Params.idList (p : Params) : List Byte :=
  [getInfoId, p.ids.setSpeed, p.ids.setProgMode, p.ids.setPinIoMode, p.ids.setPinWrite, p.ids.setPinRead,
    p.ids.send, p.ids.xferInstruction, p.ids.getPeResponse]

/-- R85: the bits of a value at positions at or above nbits are zero. nbits is any natural (R131): no rule bounds it. -/
abbrev TmsShape.Fits (t : TmsShape) : Prop := t.value.toNat < 2 ^ t.nbits

/-- R134: the commands that are MTAP by name. -/
def mtapCommands : List TapCommand := [.mtapCommand, .tapSwMtap, .tapSwEtap, .mtapIdcode]

/-- R8: which choices of the parameters are legal. Stated by the spec: ring sizes of at least 2 (D2), `OPCODE_ID`
injective (R71), a sentinel other than 0 (R153), TMS values inside their nbits (R85), ETAP_CONTROL and ETAP_DATA in
`ETAP_SELECT_SET` (R134). DEDUCED (log 46): distinct markers and operand codes, status bits inside the 32-bit control word,
no MTAP command in `ETAP_SELECT_SET`. -/
abbrev Params.Wf (p : Params) : Prop :=
  1 ≤ p.cmdInLog ∧ 1 ≤ p.cmdOutLog ∧
  p.idList.Nodup ∧
  p.markPacket ≠ p.markInfo ∧
  [p.modeCodes.tristate, p.modeCodes.jtag, p.modeCodes.icsp].Nodup ∧
  [p.pinCodes.tms, p.pinCodes.tck, p.pinCodes.tdi, p.pinCodes.tdo, p.pinCodes.mclr].Nodup ∧
  p.dirCodes.input ≠ p.dirCodes.output ∧
  p.failSentinel ≠ 0 ∧
  p.praccBit < 32 ∧ p.probenBit < 32 ∧
  (p.hdrCmdMtap.Fits ∧ p.hdrCmdEtap.Fits ∧ p.ftrCmdMtap.Fits ∧ p.ftrCmdEtap.Fits ∧ p.hdrData.Fits ∧ p.ftrData.Fits) ∧
  TapCommand.etapControl ∈ p.etapSelectSet ∧ TapCommand.etapData ∈ p.etapSelectSet ∧
  (∀ c ∈ p.etapSelectSet, c ∉ mtapCommands)

/-- R132, U3, U6: the captured value of a transport call whose answer no input gives: any u64, a fresh one for each
number. A free value: it has no body, so nothing in Lean can evaluate it (log 4). -/
opaque Config.freeCapture : Nat → U64

/-- R177, U4: the level the GPIO driver answers where no input gives it: any level, a fresh one for each number. A free
value (log 4). -/
opaque Config.freeLevel : Nat → Nat

/-- R12, D27: `INFO_BLOCK` of the block as built; the spec gives its layout and no bytes. A free value (log 3). -/
opaque Config.infoBlock : TransportMode → InfoBlock

/-- R155, D26: `PE_SETTLE_TICKS` of the block as built. A free value (log 3). -/
opaque Config.peSettleTicks : Nat

/-- R176, D35: `TICK_WIDTH` of the block as built. A free value (log 3). -/
opaque Config.tickWidth : Nat

end Sys2Proof
end

