-- ==== Sys2Proof/Syntax.lean ====
section
/-!
DEFINITION. The instructions: the twelve rows of spec/opcode_table.json (30_encoding.md R63 to R81).
-/

namespace Sys2Proof

/-- One constructor for each row of the opcode table. Operands are what the wire carries: a byte outside its code table
is an accepted operand with an effect of its own (R82). -/
inductive Instr where
  /-- INFO: the info marker, found in the Idle phase (R64, R96). -/
  | info
  /-- PACKET: the packet marker, found in the Idle phase (R65, R95). -/
  | packet
  /-- GET_INFO (R114). -/
  | getInfo
  /-- SET_SPEED khz (R73, R115). -/
  | setSpeed (khz : U16)
  /-- SET_PROG_MODE m (R74, R116). -/
  | setProgMode (m : Byte)
  /-- SET_PIN_IO_MODE pin, dir (R75, R117). -/
  | setPinIoMode (pin : Byte) (dir : Byte)
  /-- SET_PIN_WRITE pin, level (R76, R118). -/
  | setPinWrite (pin : Byte) (level : Byte)
  /-- SET_PIN_READ pin (R77, R119). -/
  | setPinRead (pin : Byte)
  /-- SEND pn, pv, dn, dv, en, ev, rd (R78, R120); the counts and the flag hold a u8 or a u32, as the layout says. -/
  | send (pn : U32) (pv : U64) (dn : U32) (dv : U64) (en : U32) (ev : U64) (rd : U32)
  /-- XFER_INSTRUCTION w (R79, R149). -/
  | xferInstruction (w : U32)
  /-- GET_PE_RESPONSE (R151). -/
  | getPeResponse
  /-- An opcode-stream byte that is the ID of no opcode (R81, R110). -/
  | unrecognisedByte (b : Byte)
  deriving DecidableEq, Repr

end Sys2Proof
end

