-- ==== Sys2Proof/Machine/Params.lean ====
section
/-!
DEFINITION. The constants the source fixes, and the default parameters of 00_scope.md R8, which the state after reset
carries. R8 gives no default for INFO_BLOCK, PE_SETTLE_TICKS and TICK_WIDTH: those are the free values of Config.
-/

namespace Sys2Proof.Machine

/-- R8, R147: poll attempts before timeout. -/
def maxPoll : Nat := 40

/-- R8: `EJTAG_WIDTH`, the width of the control, data and instruction words. -/
def ejtagWidth : Nat := 32

/-- R8, R83: `CMD_NBITS`, the width of a TAP command code. -/
def cmdNbits : Nat := 5

/-- R8's default column (log 2, log 3). -/
def defaultParams : Params where
  cmdInLog := 8
  cmdOutLog := 8
  ids :=
    { setSpeed := 0x02, setProgMode := 0x03, setPinIoMode := 0x04, setPinWrite := 0x05, setPinRead := 0x06,
      send := 0x07, xferInstruction := 0x08, getPeResponse := 0x09 }
  markPacket := 0x70
  markInfo := 0x69
  modeCodes := { tristate := 0x00, jtag := 0x01, icsp := 0x02 }
  pinCodes := { tms := 0x00, tck := 0x01, tdi := 0x02, tdo := 0x03, mclr := 0x04 }
  dirCodes := { input := 0x00, output := 0x01 }
  sendLayout := .l8x64
  failSentinel := 0x00000000FFFFFFFF
  praccBit := 18
  probenBit := 15
  controlPollWord := 0x0004C000
  controlRearmWord := 0x0000C000
  peReadTdiWord := 0x00000000
  codes :=
    { mtapIdcode := 0x01, tapSwMtap := 0x04, tapSwEtap := 0x05, mtapCommand := 0x07, etapAddress := 0x08,
      etapData := 0x09, etapControl := 0x0A, etapEjtagboot := 0x0C, etapFastdata := 0x0E }
  etapSelectSet := [.etapAddress, .etapData, .etapControl, .etapEjtagboot, .etapFastdata]
  hdrCmdMtap := { nbits := 4, value := 0x3 }
  hdrCmdEtap := { nbits := 4, value := 0x3 }
  ftrCmdMtap := { nbits := 2, value := 0x1 }
  ftrCmdEtap := { nbits := 2, value := 0x1 }
  hdrData := { nbits := 3, value := 0x1 }
  ftrData := { nbits := 2, value := 0x1 }
  tristateCapture := 0
  peSettleTicks := Config.peSettleTicks
  infoTristate := Config.infoBlock .tristate
  infoJtag := Config.infoBlock .jtag
  infoIcsp := Config.infoBlock .icsp
  tickWidth := Config.tickWidth

end Sys2Proof.Machine
end

