-- ==== Sys2Proof/WellFormed.lean ====
section
/-!
DEFINITION. Which instructions have a wire form under a choice of parameters: the field widths of SEND's layout (R78),
and the bytes that are unrecognised (R81).
-/

namespace Sys2Proof

/-- R78: the counts and the flag of SEND fit the layout's field. -/
def countFits (p : Params) (v : U32) : Bool :=
  match p.sendLayout with
  | .l8x64 => decide (v.toNat < 2 ^ 8)
  | .l32x32 => true

/-- R78: the values of SEND fit the layout's field. -/
def valueFits (p : Params) (v : U64) : Bool :=
  match p.sendLayout with
  | .l8x64 => true
  | .l32x32 => decide (v.toNat < 2 ^ 32)

/-- An instruction that the encoding of 30_encoding.md can carry under the parameters `p`. -/
def WellFormed (p : Params) (i : Instr) : Bool :=
  match i with
  | .info => true
  | .packet => true
  | .getInfo => true
  | .setSpeed _ => true
  | .setProgMode _ => true
  | .setPinIoMode _ _ => true
  | .setPinWrite _ _ => true
  | .setPinRead _ => true
  | .send pn pv dn dv en ev rd =>
    countFits p pn && countFits p dn && countFits p en && countFits p rd &&
      (valueFits p pv && valueFits p dv && valueFits p ev)
  | .xferInstruction _ => true
  | .getPeResponse => true
  | .unrecognisedByte b => decide (b ∉ p.idList)

/-- R63, R69: whether the instruction is an opcode-stream unit (the two markers are not). -/
def Instr.isStreamUnit (i : Instr) : Bool :=
  match i with
  | .info => false
  | .packet => false
  | .getInfo => true
  | .setSpeed _ => true
  | .setProgMode _ => true
  | .setPinIoMode _ _ => true
  | .setPinWrite _ _ => true
  | .setPinRead _ => true
  | .send _ _ _ _ _ _ _ => true
  | .xferInstruction _ => true
  | .getPeResponse => true
  | .unrecognisedByte _ => true

end Sys2Proof
end

