-- ==== Sys2Proof/Decode.lean ====
section
/-!
DEFINITION. Decoding and encoding: opcode-stream units (30_encoding.md R69 to R81), markers (R64, R65), whole frames
(R65 to R67) and the frame notation (R89 to R91).
-/

namespace Sys2Proof

/-- R70: the opcodes in the order of the table. -/
def opcodeList : List Opcode :=
  [.getInfo, .setSpeed, .setProgMode, .setPinIoMode, .setPinWrite, .setPinRead, .send, .xferInstruction, .getPeResponse]

/-- R71: `OPCODE_ID`. -/
def opcodeId (p : Params) (op : Opcode) : Byte :=
  match op with
  | .getInfo => getInfoId
  | .setSpeed => p.ids.setSpeed
  | .setProgMode => p.ids.setProgMode
  | .setPinIoMode => p.ids.setPinIoMode
  | .setPinWrite => p.ids.setPinWrite
  | .setPinRead => p.ids.setPinRead
  | .send => p.ids.send
  | .xferInstruction => p.ids.xferInstruction
  | .getPeResponse => p.ids.getPeResponse

/-- R72: the opcode whose ID is `b`, if there is one (unique, as `OPCODE_ID` is injective). -/
def opcodeOfByte (p : Params) (b : Byte) : Option Opcode :=
  opcodeList.find? (fun op => opcodeId p op == b)

/-- R70: k, the number of operand bytes. -/
def operandBytes (op : Opcode) : Nat :=
  match op with
  | .getInfo => 0
  | .setSpeed => 2
  | .setProgMode => 1
  | .setPinIoMode => 2
  | .setPinWrite => 2
  | .setPinRead => 1
  | .send => 28
  | .xferInstruction => 4
  | .getPeResponse => 0

/-- R72: how many bytes the unit that begins with `b` occupies. -/
def unitLength (p : Params) (b : Byte) : Nat :=
  match opcodeOfByte p b with
  | some op => 1 + operandBytes op
  | none => 1

/-- R78: SEND's operands. -/
def decodeSend (p : Params) (a : List Byte) : Instr :=
  match p.sendLayout with
  | .l8x64 =>
    .send (BitVec.ofNat 32 (Machine.leNat (Machine.bytesAt a 0 1))) (BitVec.ofNat 64 (Machine.leNat (Machine.bytesAt a 1 8)))
      (BitVec.ofNat 32 (Machine.leNat (Machine.bytesAt a 9 1))) (BitVec.ofNat 64 (Machine.leNat (Machine.bytesAt a 10 8)))
      (BitVec.ofNat 32 (Machine.leNat (Machine.bytesAt a 18 1))) (BitVec.ofNat 64 (Machine.leNat (Machine.bytesAt a 19 8)))
      (BitVec.ofNat 32 (Machine.leNat (Machine.bytesAt a 27 1)))
  | .l32x32 =>
    .send (BitVec.ofNat 32 (Machine.leNat (Machine.bytesAt a 0 4))) (BitVec.ofNat 64 (Machine.leNat (Machine.bytesAt a 4 4)))
      (BitVec.ofNat 32 (Machine.leNat (Machine.bytesAt a 8 4))) (BitVec.ofNat 64 (Machine.leNat (Machine.bytesAt a 12 4)))
      (BitVec.ofNat 32 (Machine.leNat (Machine.bytesAt a 16 4))) (BitVec.ofNat 64 (Machine.leNat (Machine.bytesAt a 20 4)))
      (BitVec.ofNat 32 (Machine.leNat (Machine.bytesAt a 24 4)))

/-- R73 to R79: the instruction of an opcode and its k operand bytes. -/
def decodeOperands (p : Params) (op : Opcode) (a : List Byte) : Instr :=
  match op with
  | .getInfo => .getInfo
  | .setSpeed => .setSpeed (BitVec.ofNat 16 (Machine.leNat a))
  | .setProgMode => .setProgMode (a.getD 0 0)
  | .setPinIoMode => .setPinIoMode (a.getD 0 0) (a.getD 1 0)
  | .setPinWrite => .setPinWrite (a.getD 0 0) (a.getD 1 0)
  | .setPinRead => .setPinRead (a.getD 0 0)
  | .send => decodeSend p a
  | .xferInstruction => .xferInstruction (BitVec.ofNat 32 (Machine.leNat a))
  | .getPeResponse => .getPeResponse

/-- What the decoder of the opcode stream reads at the head of a byte sequence. -/
inductive Decoded where
  /-- One whole unit, and the bytes after it. -/
  | unit (i : Instr) (rest : List Byte)
  /-- R111: a recognised opcode whose operands run past the sequence. -/
  | truncated (op : Opcode)
  /-- The sequence is empty. -/
  | noByte
  deriving DecidableEq, Repr

/-- R69, R72: the decoder of the opcode stream, total on any bytes. -/
def decode (p : Params) (bytes : List Byte) : Decoded :=
  match bytes with
  | [] => .noByte
  | b :: rest =>
    match opcodeOfByte p b with
    | none => .unit (.unrecognisedByte b) rest
    | some op =>
      if rest.length < operandBytes op then .truncated op
      else .unit (decodeOperands p op (rest.take (operandBytes op))) (rest.drop (operandBytes op))

/-- R64, R65: the marker a byte is, in the Idle phase. Every other byte is stray there (R68). -/
def decodeMarker (p : Params) (b : Byte) : Option Instr :=
  if b = p.markPacket then some .packet
  else if b = p.markInfo then some .info
  else none

/-- The bytes of an instruction given as spec/opcode_table.json numbers its bits: bit 0 is the least significant bit of
the first byte; bits from `nbits` on are 0, up to the longest unit (SEND, 29 bytes). -/
def tableBytes (nbits w : Nat) : List Byte :=
  Machine.bytesLE (max ((nbits + 7) / 8) 29) (w % 2 ^ nbits)

/-- The instruction the decoders read from the bits `w` under the default parameters. A marker byte is read as the
marker, as in the Idle phase; any other byte as the head of an opcode-stream unit (log 10). -/
def decodeTableWord (nbits w : Nat) : Option Instr :=
  match tableBytes nbits w with
  | [] => none
  | b :: rest =>
    match decodeMarker Machine.defaultParams b with
    | some i => some i
    | none =>
      match decode Machine.defaultParams (b :: rest) with
      | .unit i _ => some i
      | .truncated _ => none
      | .noByte => none

/-- R78: SEND's 28 operand bytes. -/
def encodeSend (p : Params) (pn : U32) (pv : U64) (dn : U32) (dv : U64) (en : U32) (ev : U64) (rd : U32) : List Byte :=
  match p.sendLayout with
  | .l8x64 =>
    Machine.bytesLE 1 pn.toNat ++ Machine.bytesLE 8 pv.toNat ++ Machine.bytesLE 1 dn.toNat ++ Machine.bytesLE 8 dv.toNat ++
      Machine.bytesLE 1 en.toNat ++ Machine.bytesLE 8 ev.toNat ++ Machine.bytesLE 1 rd.toNat
  | .l32x32 =>
    Machine.bytesLE 4 pn.toNat ++ Machine.bytesLE 4 pv.toNat ++ Machine.bytesLE 4 dn.toNat ++ Machine.bytesLE 4 dv.toNat ++
      Machine.bytesLE 4 en.toNat ++ Machine.bytesLE 4 ev.toNat ++ Machine.bytesLE 4 rd.toNat

/-- R64, R65, R69 to R81, R90: the bytes of an instruction (of a marker, its byte). -/
def encode (p : Params) (i : Instr) : List Byte :=
  match i with
  | .info => [p.markInfo]
  | .packet => [p.markPacket]
  | .getInfo => [opcodeId p .getInfo]
  | .setSpeed khz => opcodeId p .setSpeed :: Machine.bytesLE 2 khz.toNat
  | .setProgMode m => [opcodeId p .setProgMode, m]
  | .setPinIoMode pin dir => [opcodeId p .setPinIoMode, pin, dir]
  | .setPinWrite pin level => [opcodeId p .setPinWrite, pin, level]
  | .setPinRead pin => [opcodeId p .setPinRead, pin]
  | .send pn pv dn dv en ev rd => opcodeId p .send :: encodeSend p pn pv dn dv en ev rd
  | .xferInstruction w => opcodeId p .xferInstruction :: Machine.bytesLE 4 w.toNat
  | .getPeResponse => [opcodeId p .getPeResponse]
  | .unrecognisedByte b => [b]

/-- R70, R72: how many bytes an instruction occupies (a marker: its byte). -/
def instrLength (i : Instr) : Nat :=
  match i with
  | .info => 1
  | .packet => 1
  | .getInfo => 1
  | .setSpeed _ => 3
  | .setProgMode _ => 2
  | .setPinIoMode _ _ => 3
  | .setPinWrite _ _ => 3
  | .setPinRead _ => 2
  | .send _ _ _ _ _ _ _ => 29
  | .xferInstruction _ => 5
  | .getPeResponse => 1
  | .unrecognisedByte _ => 1

/-- R69: units follow one another with no padding. -/
def encodeStream (p : Params) (units : List Instr) : List Byte :=
  units.flatMap (encode p)

/-- R67: the 8-bit unsigned sum of the opcode-stream bytes. -/
def checksumOf (stream : List Byte) : Byte :=
  stream.foldl (· + ·) 0

/-- R65: a frame with the length field and the checksum byte given. -/
def frameBytes (p : Params) (len : Nat) (stream : List Byte) (csum : Byte) : List Byte :=
  [p.markPacket] ++ Machine.bytesLE 2 len ++ stream ++ [csum]

/-- R65 to R67: the packet frame of an opcode stream. -/
def encodePacket (p : Params) (stream : List Byte) : List Byte :=
  frameBytes p (stream.length + 1) stream (checksumOf stream)

/-- R89: one line of the frame notation. `packet` may replace the checksum byte (CSUM=) and the length field (LEN=). -/
inductive AsmLine where
  | info
  | raw (bytes : List Byte)
  | packet (units : List Instr) (csum : Option Byte) (len : Option Nat)
  deriving DecidableEq, Repr

/-- R89: the bytes one line of the notation emits into cmdIn. -/
def assembleLine (p : Params) (line : AsmLine) : List Byte :=
  match line with
  | .info => [p.markInfo]
  | .raw bytes => bytes
  | .packet units csum len =>
    let stream := encodeStream p units
    frameBytes p (len.getD (stream.length + 1)) stream (csum.getD (checksumOf stream))

/-- R89: a program is a sequence of lines. -/
def assemble (p : Params) (lines : List AsmLine) : List Byte :=
  lines.flatMap (assembleLine p)

end Sys2Proof
end

