-- ==== Sys2Proof/Machine/State.lean ====
section
/-!
DEFINITION. The state of the block (10_state.md R15): two rings, PacketState, the transport mode and the history; and
the model's own fields: the parameters (`cfg`, log 1) and what the outside world does next and has received (`env`).
-/

namespace Sys2Proof.Machine

/-- The bytes of one ring's array: cells with strictly rising addresses, none equal to what an unlisted address reads
as (log 7). -/
abbrev Memory := List Host.Cell

/-- R16, R17: a ring buffer; `head` is the next write index, `tail` the next read index. -/
structure Ring where
  data : Memory
  head : Nat
  tail : Nat
  deriving DecidableEq, Repr

/-- The two rings, by name (R161, O8). -/
inductive RingName where
  | cmdIn
  | cmdOut
  deriving DecidableEq, Repr

/-- R20: the decoder's state. -/
inductive PacketType where
  | empty
  | info
  | packet
  deriving DecidableEq, Repr

/-- R21: the status flag. No rule writes `overflow`. -/
inductive PacketStatus where
  | ok
  | parsed
  | error
  | overflow
  deriving DecidableEq, Repr

/-- R20 to R23: the decoder's registers. -/
structure PacketState where
  type : PacketType
  status : PacketStatus
  expectedLength : U16
  currentPos : U16
  deriving DecidableEq, Repr

/-- R24: the phases. -/
inductive Phase where
  | idle
  | infoDue
  | awaitLength
  | awaitBody
  | executing
  deriving DecidableEq, Repr

/-- R87: the arguments of one pulse-transport call: prolog, data and epilog, each with its nbits and value. -/
structure TransportCall where
  pn : Nat
  pv : U64
  dn : Nat
  dv : U64
  en : Nat
  ev : U64
  deriving DecidableEq, Repr

/-- R161: the outcomes the block handles in place, O1 to O7, with the information each records. -/
inductive BlockOutcome where
  /-- O1: raised by the checksum transition (R104). -/
  | checksumMismatch (sum : Byte) (c : Byte)
  /-- O2: raised by pushInbound (R45). -/
  | inboundOverflow (n : Nat)
  /-- O3: raised by the response push (R112, R97). -/
  | responseDropped (n : Nat)
  /-- O4: raised by an unrecognised byte (R110). -/
  | unknownOpcode (b : Byte)
  /-- O5: raised by a truncated opcode (R111). -/
  | truncatedOpcode (op : Opcode)
  /-- O6: raised by an operand byte outside its code table (R116 to R119). -/
  | invalidOperand (op : Opcode) (bytes : List Byte)
  /-- O7: raised by a poll that times out (R150, R152). -/
  | pollTimeout (op : Opcode)
  deriving DecidableEq, Repr

/-- R173: the events of the history. -/
inductive Event where
  | sendJTAG (call : TransportCall) (cap : U64)
  | sendICSP (call : TransportCall) (cap : U64)
  | gpioSetup (pin : Pin) (dir : Direction)
  | gpioSet (pin : Pin) (level : Level)
  | gpioGet (pin : Pin) (lv : Nat)
  | delay (ticks : Nat)
  | outcome (o : BlockOutcome)
  deriving DecidableEq, Repr

/-- R170: one move of one agent. -/
inductive Move where
  /-- One transition of the engine (R93). -/
  | engine
  /-- The inbound producer calls pushInbound (R45). -/
  | pushInbound (bytes : List Byte)
  /-- The outbound consumer calls drainOutbound (R46). -/
  | drainOutbound (maxBytes : Nat)
  deriving DecidableEq, Repr

/-- The model's own record of the outside world (R14): the moves the agents make next, the answers the oracles give
next, how many free answers have been drawn, and the bytes the host has drained. -/
structure Env where
  /-- The moves the agents make next, the next one first; with none left the engine moves (R170, log 5). -/
  schedule : List Move
  /-- The captured values the pulse transport returns next (R132, log 4). -/
  transportAnswers : List U64
  /-- How many free captured values have been drawn (log 4). -/
  captureDraws : Nat
  /-- The levels the GPIO driver answers next (R177, log 4). -/
  gpioAnswers : List Nat
  /-- How many free levels have been drawn (log 4). -/
  levelDraws : Nat
  /-- The bytes drainOutbound has returned, in order (R46, log 6). -/
  drained : List Byte
  deriving DecidableEq, Repr

/-- R15: the state, with the model's own fields `cfg` and `env`. -/
structure State where
  cmdIn : Ring
  cmdOut : Ring
  pkt : PacketState
  transportMode : TransportMode
  history : List Event
  cfg : Params
  env : Env
  deriving DecidableEq, Repr

/-- Why a step stops with a fault. -/
inductive Fault where
  /-- O8 RingUnderflow (R43, R44, R161): raised by a Pop or Peek of more bytes than the ring holds, `n` counted from
  the tail. The source calls it undefined (U1). Safe: the model stops; no rule reaches it from a state of R24. -/
  | ringUnderflow (ring : RingName) (n : Nat)
  deriving DecidableEq, Repr

/-- Why a step is refused. -/
inductive Refusal where
  /-- An instruction without a meaning in the model: raised by an arm of `exec` alone. Safe. -/
  | notModelled (mnemonic : String)
  /-- PacketState is in no row of R24's table (U5, U11): raised by the engine's transition selection. Safe. -/
  | unreachablePacketState
  /-- sendCommand of a command outside the domain of FAMILY (R136, U8): raised by sendCommand. No opcode reaches it
  (R139). Safe. -/
  | commandOutsideFamily (c : TapCommand)
  /-- sendCommand of a code that is the CODE of no command (R136, U8): raised by sendCode. No opcode reaches it. Safe. -/
  | unknownCommandCode (code : BitVec 5)
  deriving DecidableEq, Repr

/-- What an operation answers: a value, a fault or a refusal. -/
abbrev Result (α : Type) := Host.Outcome α Fault Refusal

/-- The state with another cmdIn. -/
def State.setCmdIn (s : State) (b : Ring) : State := { s with cmdIn := b }

/-- The state with another cmdOut. -/
def State.setCmdOut (s : State) (b : Ring) : State := { s with cmdOut := b }

/-- The state with another PacketState. -/
def State.setPkt (s : State) (k : PacketState) : State := { s with pkt := k }

/-- The state with another transport mode. -/
def State.setMode (s : State) (m : TransportMode) : State := { s with transportMode := m }

/-- The state with another history. -/
def State.setHistory (s : State) (h : List Event) : State := { s with history := h }

/-- The state with another record of the outside world. -/
def State.setEnv (s : State) (e : Env) : State := { s with env := e }

/-- R35: an empty ring, head = tail = 0; its array lists nothing (log 7, log 8). -/
def Ring.reset : Ring := { data := [], head := 0, tail := 0 }

/-- R35: PacketState after reset (log 8). -/
def PacketState.reset : PacketState := { type := .empty, status := .ok, expectedLength := 0, currentPos := 0 }

/-- The outside world at reset: nothing scheduled, no answer given, nothing drained (log 4, log 5, log 6). -/
def Env.reset : Env :=
  { schedule := [], transportAnswers := [], captureDraws := 0, gpioAnswers := [], levelDraws := 0, drained := [] }

/-- R35, R183: the state after reset. -/
def State.reset : State where
  cmdIn := Ring.reset
  cmdOut := Ring.reset
  pkt := PacketState.reset
  transportMode := .tristate
  history := []
  cfg := defaultParams
  env := Env.reset

end Sys2Proof.Machine
end

