-- ==== Sys2Proof/Machine/Ops.lean ====
section
/-!
DEFINITION. The named operations: the bytes of a ring's array, the ring operations of 20_memory.md, the phases of R24,
the oracles' answers, the history, the outcomes of R161, and the moves of PacketState.
-/

namespace Sys2Proof.Machine

/-- One operation after another: a fault or a refusal of the first ends both. -/
def andThen {α β : Type} (r : Result α) (f : α → Result β) : Result β :=
  match r with
  | .next a => f a
  | .fault e => .fault e
  | .refused e => .refused e

/-! ### The bytes of an array -/

/-- What a byte of a ring's array that nothing has written reads as (R35: unspecified; log 7). -/
def unwrittenByte : Byte := 0

/-- One byte of an array. -/
def Memory.read (m : Memory) (a : Nat) : Byte :=
  match m with
  | [] => unwrittenByte
  | (k, b) :: rest => if k = a then b else Memory.read rest a

/-- An array with one byte written, in canonical form. -/
def Memory.write (m : Memory) (a : Nat) (b : Byte) : Memory :=
  match m with
  | [] => if b = unwrittenByte then [] else [(a, b)]
  | (k, c) :: rest =>
    if a < k then (if b = unwrittenByte then (k, c) :: rest else (a, b) :: (k, c) :: rest)
    else if a = k then (if b = unwrittenByte then rest else (a, b) :: rest)
    else (k, c) :: Memory.write rest a b

/-- The canonical form, for cells at or above `lo`: addresses strictly rising, no cell equal to an unlisted byte. -/
def Memory.wfFrom (lo : Nat) (m : Memory) : Bool :=
  match m with
  | [] => true
  | (k, b) :: rest => decide (lo ≤ k) && decide (b ≠ unwrittenByte) && Memory.wfFrom (k + 1) rest

/-- The canonical form of an array. -/
def Memory.wf (m : Memory) : Bool := Memory.wfFrom 0 m

/-! ### Ring buffers -/

/-- R39: every index computation on a ring of size N is reduced with the mask. -/
def mask (N x : Nat) : Nat := x &&& (N - 1)

/-- R40: how many bytes the ring holds. -/
def Ring.occupied (N : Nat) (b : Ring) : Nat := mask N (b.head + N - b.tail)

/-- R40: how many bytes fit. -/
def Ring.spaceLeft (N : Nat) (b : Ring) : Nat := (N - 1) - b.occupied N

/-- R41: `MemRead(B, i, n)`. -/
def Ring.memRead (N : Nat) (b : Ring) (i n : Nat) : List Byte :=
  (List.range n).map (fun j => b.data.read (mask N (i + j)))

/-- R41: `MemWrite(B, i, n, s)` with n = len(s), on the array alone. -/
def memWrite (N : Nat) (data : Memory) (i : Nat) (bytes : List Byte) : Memory :=
  match bytes with
  | [] => data
  | b :: rest => memWrite N (data.write (mask N i) b) (i + 1) rest

/-- R42: `Push(B, s)`; `none` is Overflow. -/
def Ring.push (N : Nat) (b : Ring) (bytes : List Byte) : Option Ring :=
  if bytes.length > b.spaceLeft N then none
  else some { data := memWrite N b.data b.head bytes, head := mask N (b.head + bytes.length), tail := b.tail }

/-- R44: `Peek(B, off, n)`. -/
def Ring.peek (name : RingName) (N : Nat) (b : Ring) (off n : Nat) : Result (List Byte) :=
  if off + n > b.occupied N then .fault (.ringUnderflow name (off + n))
  else .next (b.memRead N (mask N (b.tail + off)) n)

/-- R43: `Pop(B, n)`. -/
def Ring.pop (name : RingName) (N : Nat) (b : Ring) (n : Nat) : Result (List Byte × Ring) :=
  if n > b.occupied N then .fault (.ringUnderflow name n)
  else .next (b.memRead N b.tail n, { b with tail := mask N (b.tail + n) })

/-- R18: the ring's content, oldest byte first. -/
def Ring.content (N : Nat) (b : Ring) : List Byte := b.memRead N b.tail (b.occupied N)

/-- R18, R37: what holds of a ring of size N at every state: indices in range, and the array canonical and inside the
index space. -/
abbrev Ring.Wf (N : Nat) (b : Ring) : Prop :=
  b.head < N ∧ b.tail < N ∧ b.data.wf = true ∧ (∀ c ∈ b.data, c.1 < N)

/-! ### The rings of the block -/

/-- `Occupied(cmdIn)`. -/
def inCount (s : State) : Nat := s.cmdIn.occupied s.cfg.nCmdIn

/-- The content of cmdIn. -/
def inContent (s : State) : List Byte := s.cmdIn.content s.cfg.nCmdIn

/-- The content of cmdOut. -/
def outContent (s : State) : List Byte := s.cmdOut.content s.cfg.nCmdOut

/-- `SpaceLeft(cmdOut)`. -/
def outSpace (s : State) : Nat := s.cmdOut.spaceLeft s.cfg.nCmdOut

/-- `Peek(cmdIn, off, n)`. -/
def peekIn (off n : Nat) (s : State) : Result (List Byte) := s.cmdIn.peek .cmdIn s.cfg.nCmdIn off n

/-- `Pop(cmdIn, n)`. -/
def popIn (n : Nat) (s : State) : Result (List Byte × State) :=
  andThen (s.cmdIn.pop .cmdIn s.cfg.nCmdIn n) (fun r => .next (r.1, s.setCmdIn r.2))

/-! ### History and outcomes -/

/-- R33: an event is appended to the history. -/
def emit (e : Event) (s : State) : State := s.setHistory (s.history ++ [e])

/-- R161, R167: raising an outcome records it in the history; nothing is saved, masked or redirected. -/
def raiseOutcome (o : BlockOutcome) (s : State) : State := emit (.outcome o) s

/-- R161: the number k of the code Ok. -/
def outcomeCode (o : BlockOutcome) : Nat :=
  match o with
  | .checksumMismatch _ _ => 1
  | .inboundOverflow _ => 2
  | .responseDropped _ => 3
  | .unknownOpcode _ => 4
  | .truncatedOpcode _ => 5
  | .invalidOperand _ _ => 6
  | .pollTimeout _ => 7

/-- R112: a response is pushed to cmdOut whole, or dropped whole with ResponseDropped. -/
def pushResponse (r : List Byte) (s : State) : State :=
  match s.cmdOut.push s.cfg.nCmdOut r with
  | some b => s.setCmdOut b
  | none => raiseOutcome (.responseDropped r.length) s

/-! ### The oracles -/

/-- R132: the captured value of the j-th transport call from here, counting from 0: an input, or a free value. -/
def Env.capture (e : Env) (j : Nat) : U64 :=
  e.transportAnswers.getD j (Config.freeCapture (e.captureDraws + (j - e.transportAnswers.length)))

/-- The outside world after `n` transport calls. -/
def Env.afterCaptures (e : Env) (n : Nat) : Env :=
  { e with
    transportAnswers := e.transportAnswers.drop n,
    captureDraws := e.captureDraws + (n - e.transportAnswers.length) }

/-- R177: the level the next GpioGet answers: an input, or a free value. -/
def Env.level (e : Env) : Nat := e.gpioAnswers.headD (Config.freeLevel e.levelDraws)

/-- The outside world after one GpioGet. -/
def Env.afterLevel (e : Env) : Env :=
  { e with
    gpioAnswers := e.gpioAnswers.tail,
    levelDraws := e.levelDraws + (1 - e.gpioAnswers.length) }

/-! ### PacketState -/

/-- R24: the phase of a PacketState; none where it is in no row of the table. -/
def phaseOf (k : PacketState) : Option Phase :=
  match k.type with
  | .empty =>
    if k.status ≠ .overflow ∧ k.expectedLength = 0 ∧ k.currentPos = 0 then some .idle else none
  | .info =>
    if k.status ≠ .overflow ∧ k.expectedLength = 0 ∧ k.currentPos = 0 then some .infoDue else none
  | .packet =>
    match k.status with
    | .ok =>
      if k.currentPos = 0 then (if k.expectedLength = 0 then some .awaitLength else some .awaitBody) else none
    | .parsed =>
      if k.expectedLength ≠ 0 ∧ k.currentPos.toNat ≤ k.expectedLength.toNat - 1 then some .executing else none
    | .error => none
    | .overflow => none

/-- R24: L, the length of the opcode stream. -/
def streamLength (k : PacketState) : Nat := k.expectedLength.toNat - 1

/-- R25: currentPos moves past `n` bytes of the opcode stream. -/
def advance (n : Nat) (s : State) : State :=
  s.setPkt { s.pkt with currentPos := s.pkt.currentPos + BitVec.ofNat 16 n }

/-- R104, R105: the decoder returns to Empty; the status stays. -/
def returnToEmpty (s : State) : State :=
  s.setPkt { s.pkt with type := .empty, expectedLength := 0, currentPos := 0 }

/-- R12: `INFO_BLOCK(transportMode)`. -/
def infoReplyBytes (s : State) : List Byte :=
  match s.transportMode with
  | .tristate => s.cfg.infoTristate.bytes.toList
  | .jtag => s.cfg.infoJtag.bytes.toList
  | .icsp => s.cfg.infoIcsp.bytes.toList

end Sys2Proof.Machine
end

