-- ==== Sys2Proof/Machine/Flags.lean ====
section
/-!
DEFINITION. The block's one status flag, `pkt.status` (10_state.md R21, R34): who writes it and with what.
-/

namespace Sys2Proof.Machine

/-- R34: the status flag is written; nothing else of PacketState changes. -/
def setStatus (st : PacketStatus) (s : State) : State := s.setPkt { s.pkt with status := st }

/-- R102 to R104: the status a checked packet gets: Parsed where the sum of its stream is its checksum byte. -/
def statusOfCheck (sum c : Byte) : PacketStatus := if sum = c then .parsed else .error

end Sys2Proof.Machine
end

