-- ==== Sys2Proof/Machine/Frames.lean ====
section
/-!
DEFINITION. The packet framer (40_framer.md): the meanings of the two markers and the framer's own transitions.
-/

namespace Sys2Proof.Machine

/-- R94: whether a byte is a marker. -/
def isMarker (p : Params) (b : Byte) : Bool := (decodeMarker p b).isSome

/-- R95, R96: k, the offset of the first marker in cmdIn (its length where there is none). -/
def strayCount (s : State) : Nat := (inContent s).findIdx (isMarker s.cfg)

/-- R93: the marker the Idle phase finds first. -/
def firstMarker (s : State) : Option Instr := (inContent s).findSome? (decodeMarker s.cfg)

/-- R96: SCAN-INFO. -/
def execInfo (s : State) : Result State :=
  andThen (popIn (strayCount s + 1) s) (fun r => .next (r.2.setPkt { r.2.pkt with type := .info }))

/-- R95: SCAN-PACKET. -/
def execPacket (s : State) : Result State :=
  andThen (popIn (strayCount s + 1) s)
    (fun r => .next (r.2.setPkt { type := .packet, status := .ok, expectedLength := 0, currentPos := 0 }))

/-- R97: INFO-REPLY. -/
def infoReply (s : State) : State :=
  let s1 := pushResponse (infoReplyBytes s) s
  s1.setPkt { s1.pkt with type := .empty }

/-- R99, R100: LENGTH-READ. A field of 0 leaves the length unknown. -/
def lengthRead (s : State) : Result State :=
  andThen (popIn 2 s)
    (fun r => .next (r.2.setPkt { r.2.pkt with expectedLength := BitVec.ofNat 16 (leNat r.1) }))

/-- R103: the checksum matches. -/
def acceptPacket (s : State) : State :=
  let s1 := setStatus .parsed s
  s1.setPkt { s1.pkt with currentPos := 0 }

/-- R104: the checksum does not match. -/
def discardPacket (sum c : Byte) (s : State) : Result State :=
  andThen (popIn s.pkt.expectedLength.toNat (setStatus .error s))
    (fun r => .next (raiseOutcome (.checksumMismatch sum c) (returnToEmpty r.2)))

/-- R102: CHECKSUM. -/
def checksumStep (s : State) : Result State :=
  andThen (peekIn 0 (streamLength s.pkt) s) (fun stream =>
    andThen (peekIn (streamLength s.pkt) 1 s) (fun last =>
      match statusOfCheck (checksumOf stream) (last.headD 0) with
      | .parsed => .next (acceptPacket s)
      | _ => discardPacket (checksumOf stream) (last.headD 0) s))

/-- R105: RETIRE. -/
def retire (s : State) : Result State :=
  andThen (popIn s.pkt.expectedLength.toNat s) (fun r => .next (returnToEmpty r.2))

/-- R111: a truncated opcode ends the scan. -/
def truncateScan (op : Opcode) (s : State) : State :=
  let s1 := raiseOutcome (.truncatedOpcode op) s
  s1.setPkt { s1.pkt with currentPos := BitVec.ofNat 16 (streamLength s1.pkt) }

end Sys2Proof.Machine
end

