-- ==== Sys2Proof/Machine/Operands.lean ====
section
/-!
DEFINITION. The operand codes: which mode, pin, direction or level an operand byte names (30_encoding.md R74 to R77).
-/

namespace Sys2Proof.Machine

/-- R74: the mode whose `MODE_CODE` the byte is. -/
def modeOfByte (p : Params) (b : Byte) : Option TransportMode :=
  if b = p.modeCodes.tristate then some .tristate
  else if b = p.modeCodes.jtag then some .jtag
  else if b = p.modeCodes.icsp then some .icsp
  else none

/-- R75: the pin whose `PIN_CODE` the byte is. -/
def pinOfByte (p : Params) (b : Byte) : Option Pin :=
  if b = p.pinCodes.tms then some .tms
  else if b = p.pinCodes.tck then some .tck
  else if b = p.pinCodes.tdi then some .tdi
  else if b = p.pinCodes.tdo then some .tdo
  else if b = p.pinCodes.mclr then some .mclr
  else none

/-- R75: the direction whose `DIR_CODE` the byte is. -/
def dirOfByte (p : Params) (b : Byte) : Option Direction :=
  if b = p.dirCodes.input then some .input
  else if b = p.dirCodes.output then some .output
  else none

/-- R76: level 0x00 means low and any other byte means high. -/
def levelOfByte (b : Byte) : Level := if b = 0 then .low else .high

/-- R119: a level read back is normalised to 0 or 1. -/
def normaliseLevel (lv : Nat) : Nat := if lv = 0 then 0 else 1

end Sys2Proof.Machine
end

