-- ==== Sys2Proof/Machine/HostOpcodes.lean ====
section
/-!
DEFINITION. The host opcodes of 41_executor.md that drive no transport, and the unrecognised byte. Each meaning is one
EXEC-STEP (R109): the opcode's effect, then currentPos past its bytes.
-/

namespace Sys2Proof.Machine

/-- R114: GET_INFO. -/
def execGetInfo (s : State) : Result State := .next (advance 1 (pushResponse (infoReplyBytes s) s))

/-- R115: SET_SPEED; the operand is ignored. -/
def execSetSpeed (_khz : U16) (s : State) : Result State := .next (advance 3 s)

/-- R116: the effect of SET_PROG_MODE. -/
def applyProgMode (m : Byte) (s : State) : State :=
  match modeOfByte s.cfg m with
  | some x => s.setMode x
  | none => raiseOutcome (.invalidOperand .setProgMode [m]) s

/-- R116: SET_PROG_MODE. -/
def execSetProgMode (m : Byte) (s : State) : Result State := .next (advance 2 (applyProgMode m s))

/-- R117: the effect of SET_PIN_IO_MODE. -/
def applyPinIoMode (pin dir : Byte) (s : State) : State :=
  match pinOfByte s.cfg pin, dirOfByte s.cfg dir with
  | some p, some d => emit (.gpioSetup p d) s
  | _, _ => raiseOutcome (.invalidOperand .setPinIoMode [pin, dir]) s

/-- R117: SET_PIN_IO_MODE. -/
def execSetPinIoMode (pin dir : Byte) (s : State) : Result State := .next (advance 3 (applyPinIoMode pin dir s))

/-- R118: the effect of SET_PIN_WRITE. -/
def applyPinWrite (pin level : Byte) (s : State) : State :=
  match pinOfByte s.cfg pin with
  | some p => emit (.gpioSet p (levelOfByte level)) s
  | none => raiseOutcome (.invalidOperand .setPinWrite [pin]) s

/-- R118: SET_PIN_WRITE. -/
def execSetPinWrite (pin level : Byte) (s : State) : Result State := .next (advance 3 (applyPinWrite pin level s))

/-- R119: one GpioGet: the driver's answer is recorded. -/
def gpioGet (p : Pin) (s : State) : Nat × State :=
  (s.env.level, emit (.gpioGet p s.env.level) (s.setEnv s.env.afterLevel))

/-- R119: the level SET_PIN_READ answers, and the state after it is sampled. -/
def samplePin (pin : Byte) (s : State) : Nat × State :=
  match pinOfByte s.cfg pin with
  | some p => (normaliseLevel (gpioGet p s).1, (gpioGet p s).2)
  | none => (0, raiseOutcome (.invalidOperand .setPinRead [pin]) s)

/-- R119: SET_PIN_READ. -/
def execSetPinRead (pin : Byte) (s : State) : Result State :=
  .next (advance 2 (pushResponse (bytesLE 4 (samplePin pin s).1) (samplePin pin s).2))

/-- R110: an unrecognised byte is skipped; UnknownOpcode is recorded. -/
def execUnrecognisedByte (b : Byte) (s : State) : Result State := .next (advance 1 (raiseOutcome (.unknownOpcode b) s))

end Sys2Proof.Machine
end

