-- ==== Sys2Proof/Machine/Tap.lean ====
section
/-!
DEFINITION. The TAP command encoder (42_tap_encoder.md): transport selection, classification, sendCommand and xferData.
-/

namespace Sys2Proof.Machine

/-- One transport call that is made: its event is recorded with the answer (R131). -/
def recordCall (mk : TransportCall → U64 → Event) (call : TransportCall) (s : State) : U64 × State :=
  (s.env.capture 0, emit (mk call (s.env.capture 0)) (s.setEnv (s.env.afterCaptures 1)))

/-- R131: `Transport`. Tristate makes no call and yields `TRISTATE_CAPTURE`. -/
def transport (call : TransportCall) (s : State) : U64 × State :=
  match s.transportMode with
  | .jtag => recordCall .sendJTAG call s
  | .icsp => recordCall .sendICSP call s
  | .tristate => (s.cfg.tristateCapture, s)

/-- R83: `CODE`. -/
def codeOf (p : Params) (c : TapCommand) : BitVec 5 :=
  match c with
  | .mtapIdcode => p.codes.mtapIdcode
  | .tapSwMtap => p.codes.tapSwMtap
  | .tapSwEtap => p.codes.tapSwEtap
  | .mtapCommand => p.codes.mtapCommand
  | .etapAddress => p.codes.etapAddress
  | .etapData => p.codes.etapData
  | .etapControl => p.codes.etapControl
  | .etapEjtagboot => p.codes.etapEjtagboot
  | .etapFastdata => p.codes.etapFastdata

/-- R134: `FAMILY`, an explicit table; none outside its domain. -/
def familyOf (p : Params) (c : TapCommand) : Option Family :=
  match c with
  | .mtapCommand => some .mtap
  | .tapSwMtap => some .mtap
  | .tapSwEtap => some .mtap
  | .mtapIdcode => some .mtap
  | .etapControl => some .etap
  | .etapData => some .etap
  | .etapAddress => if TapCommand.etapAddress ∈ p.etapSelectSet then some .etap else none
  | .etapEjtagboot => if TapCommand.etapEjtagboot ∈ p.etapSelectSet then some .etap else none
  | .etapFastdata => if TapCommand.etapFastdata ∈ p.etapSelectSet then some .etap else none

/-- R84: `HDR_CMD(f)`. -/
def hdrCmd (p : Params) (f : Family) : TmsShape :=
  match f with
  | .mtap => p.hdrCmdMtap
  | .etap => p.hdrCmdEtap

/-- R84: `FTR_CMD(f)`. -/
def ftrCmd (p : Params) (f : Family) : TmsShape :=
  match f with
  | .mtap => p.ftrCmdMtap
  | .etap => p.ftrCmdEtap

/-- R87: the command shape. -/
def commandCall (p : Params) (f : Family) (c : TapCommand) : TransportCall :=
  { pn := (hdrCmd p f).nbits, pv := (hdrCmd p f).value, dn := cmdNbits, dv := (codeOf p c).setWidth 64,
    en := (ftrCmd p f).nbits, ev := (ftrCmd p f).value }

/-- R87: the data shape. -/
def dataCall (p : Params) (n : Nat) (d : U64) : TransportCall :=
  { pn := p.hdrData.nbits, pv := p.hdrData.value, dn := n, dv := d, en := p.ftrData.nbits, ev := p.ftrData.value }

/-- R135: `sendCommand(c)`; R136: refused outside the domain of FAMILY. -/
def sendCommand (c : TapCommand) (s : State) : Result State :=
  match familyOf s.cfg c with
  | some f => .next (transport (commandCall s.cfg f c) s).2
  | none => .refused (.commandOutsideFamily c)

/-- R83: the nine command names (log 44), in the order of its table. -/
def tapCommandList : List TapCommand :=
  [.mtapIdcode, .tapSwMtap, .tapSwEtap, .mtapCommand, .etapAddress, .etapData, .etapControl, .etapEjtagboot, .etapFastdata]

/-- R136: sendCommand given a bare code: the command whose CODE it is, or a refusal. No opcode reaches it (R139). DESIGN
CHOICE (log 45): the spec does not say that CODE is injective; of several names with one code the first in R83's order is
taken, and its family decides the header, the footer and the refusal. -/
def sendCode (code : BitVec 5) (s : State) : Result State :=
  match tapCommandList.find? (fun c => codeOf s.cfg c == code) with
  | some c => sendCommand c s
  | none => .refused (.unknownCommandCode code)

/-- R137, R138: `xferData(n, d, rd)`; the call is made whatever rd is. -/
def xferData (n : Nat) (d : U64) (rd : Bool) (s : State) : U64 × State :=
  let r := transport (dataCall s.cfg n d) s
  (if rd then r.1 else 0, r.2)

end Sys2Proof.Machine
end

