-- ==== Sys2Proof/Machine/Poll.lean ====
section
/-!
DEFINITION. The control-register poll controller (43_poll_controller.md): pollReady and the two opcodes that wait for
the target.
-/

namespace Sys2Proof.Machine

/-- R8, R157: the bit XFER_INSTRUCTION polls. -/
def xferPollBit (p : Params) : Nat := p.probenBit

/-- R8: the bit GET_PE_RESPONSE polls. -/
def pePollBit (p : Params) : Nat := p.praccBit

/-- R146: one attempt: an xferData of `CONTROL_POLL_WORD` with the read flag set. -/
def pollAttempt (s : State) : U64 × State := xferData ejtagWidth (s.cfg.controlPollWord.setWidth 64) true s

/-- R146: the attempts that are left; `some i` is Ready(i), `none` is TimedOut. -/
def pollFrom (bit : Nat) (left : Nat) (i : Nat) (s : State) : Option Nat × State :=
  match left with
  | 0 => (none, s)
  | n + 1 =>
    if (pollAttempt s).1.getLsbD bit then (some i, (pollAttempt s).2)
    else pollFrom bit n (i + 1) (pollAttempt s).2

/-- R146, R147: `pollReady(bit)`. -/
def pollReady (bit : Nat) (s : State) : Option Nat × State := pollFrom bit maxPoll 1 s

/-- R149, R151: re-arming the control register: ETAP_CONTROL is selected and `CONTROL_REARM_WORD` shifted. -/
def rearmControl (s : State) : Result State :=
  andThen (sendCommand .etapControl s) (fun s1 =>
    .next (xferData ejtagWidth (s1.cfg.controlRearmWord.setWidth 64) false s1).2)

/-- R150, R152: the poll timed out: the outcome is recorded and the sentinel pushed in place of data. -/
def pollTimedOut (op : Opcode) (s : State) : State :=
  pushResponse (bytesLE 8 s.cfg.failSentinel.toNat) (raiseOutcome (.pollTimeout op) s)

/-- R149: what XFER_INSTRUCTION does once its poll read ready. -/
def xferReady (w : U32) (s : State) : Result State :=
  andThen (sendCommand .etapData s) (fun s1 =>
    andThen (rearmControl (xferData ejtagWidth (w.setWidth 64) false s1).2) (fun s2 =>
      .next (pushResponse (bytesLE 8 0) s2)))

/-- R149, R150: XFER_INSTRUCTION. -/
def execXferInstruction (w : U32) (s : State) : Result State :=
  andThen (sendCommand .etapControl s) (fun s1 =>
    match pollReady (xferPollBit s1.cfg) s1 with
    | (none, s2) => .next (advance 5 (pollTimedOut .xferInstruction s2))
    | (some _, s2) => andThen (xferReady w s2) (fun s3 => .next (advance 5 s3)))

/-- R151: what GET_PE_RESPONSE does once its poll read ready; the response is bits 31..0, zero-extended. -/
def peReady (s : State) : Result State :=
  andThen (sendCommand .etapData s) (fun s1 =>
    let r := xferData ejtagWidth (s1.cfg.peReadTdiWord.setWidth 64) true s1
    andThen (rearmControl r.2) (fun s2 =>
      .next (pushResponse (bytesLE 8 (r.1.setWidth 32).toNat) s2)))

/-- R151, R152: GET_PE_RESPONSE. -/
def execGetPeResponse (s : State) : Result State :=
  andThen (sendCommand .etapControl (emit (.delay s.cfg.peSettleTicks) s)) (fun s1 =>
    match pollReady (pePollBit s1.cfg) s1 with
    | (none, s2) => .next (advance 1 (pollTimedOut .getPeResponse s2))
    | (some _, s2) => andThen (peReady s2) (fun s3 => .next (advance 1 s3)))

end Sys2Proof.Machine
end

