-- ==== Sys2Proof/Machine/Transfer.lean ====
section
/-!
DEFINITION. SEND (41_executor.md R120, R121): a raw transport call, whose prolog and epilog are the host's.
-/

namespace Sys2Proof.Machine

/-- R87: the raw shape: the host's fields, passed unchanged (R121). -/
def rawCall (pn : U32) (pv : U64) (dn : U32) (dv : U64) (en : U32) (ev : U64) : TransportCall :=
  { pn := pn.toNat, pv := pv, dn := dn.toNat, dv := dv, en := en.toNat, ev := ev }

/-- R120: the response of SEND, pushed where the read flag is set. -/
def respondIf (rd : U32) (cap : U64) (s : State) : State :=
  if rd ≠ 0 then pushResponse (bytesLE 8 cap.toNat) s else s

/-- R120: SEND. -/
def execSend (pn : U32) (pv : U64) (dn : U32) (dv : U64) (en : U32) (ev : U64) (rd : U32) (s : State) : Result State :=
  let r := transport (rawCall pn pv dn dv en ev) s
  .next (advance 29 (respondIf rd r.1 r.2))

end Sys2Proof.Machine
end

