-- ==== Sys2Proof/Machine/Dispatch.lean ====
section
/-!
DEFINITION. The meaning of every instruction: one arm per constructor, one direct call of that instruction's meaning.
-/

namespace Sys2Proof.Machine

def exec (i : Instr) (s : State) : Host.Outcome State Fault Refusal :=
  match i with
  | .info => Sys2Proof.Machine.execInfo s
  | .packet => Sys2Proof.Machine.execPacket s
  | .getInfo => Sys2Proof.Machine.execGetInfo s
  | .setSpeed khz => Sys2Proof.Machine.execSetSpeed khz s
  | .setProgMode m => Sys2Proof.Machine.execSetProgMode m s
  | .setPinIoMode pin dir => Sys2Proof.Machine.execSetPinIoMode pin dir s
  | .setPinWrite pin level => Sys2Proof.Machine.execSetPinWrite pin level s
  | .setPinRead pin => Sys2Proof.Machine.execSetPinRead pin s
  | .send pn pv dn dv en ev rd => Sys2Proof.Machine.execSend pn pv dn dv en ev rd s
  | .xferInstruction w => Sys2Proof.Machine.execXferInstruction w s
  | .getPeResponse => Sys2Proof.Machine.execGetPeResponse s
  | .unrecognisedByte b => Sys2Proof.Machine.execUnrecognisedByte b s

end Sys2Proof.Machine
end

