-- ==== Sys2Proof/Machine/Engine.lean ====
section
/-!
DEFINITION. The engine's transition selection (40_framer.md R93, 41_executor.md R109) and the moves of the agents
(60_exceptions.md R170).
-/

namespace Sys2Proof.Machine

/-- R109: the unit at currentPos. Its first byte is peeked for its length; the whole unit is peeked only where it lies
inside the opcode stream. -/
def fetchUnit (s : State) : Result Decoded :=
  andThen (peekIn s.pkt.currentPos.toNat 1 s) (fun first =>
    match opcodeOfByte s.cfg (first.headD 0) with
    | none => .next (decode s.cfg first)
    | some op =>
      if s.pkt.currentPos.toNat + 1 + operandBytes op > streamLength s.pkt then .next (.truncated op)
      else andThen (peekIn s.pkt.currentPos.toNat (1 + operandBytes op) s) (fun bytes => .next (decode s.cfg bytes)))

/-- R109 to R111: EXEC-STEP. -/
def executorStep (s : State) : Result State :=
  andThen (fetchUnit s) (fun d =>
    match d with
    | .unit i _ => exec i s
    | .truncated op => .next (truncateScan op s)
    | .noByte => .fault (.ringUnderflow .cmdIn (s.pkt.currentPos.toNat + 1)))

/-- R93, Idle: the transition of the first marker, or no change (R94). -/
def idleStep (s : State) : Result State :=
  match firstMarker s with
  | some i => exec i s
  | none => .next s

/-- R93: the engine's transition. A PacketState in no row of R24 is refused (U11). -/
def engineStep (s : State) : Result State :=
  match phaseOf s.pkt with
  | none => .refused .unreachablePacketState
  | some .idle => idleStep s
  | some .infoDue => .next (infoReply s)
  | some .awaitLength => if inCount s < 2 then .next s else lengthRead s
  | some .awaitBody => if inCount s < s.pkt.expectedLength.toNat then .next s else checksumStep s
  | some .executing => if s.pkt.currentPos.toNat < streamLength s.pkt then executorStep s else retire s

/-- R45: pushInbound; on Overflow cmdIn is unchanged and InboundOverflow is recorded (R161). -/
def pushInbound (bytes : List Byte) (s : State) : State :=
  match s.cmdIn.push s.cfg.nCmdIn bytes with
  | some b => s.setCmdIn b
  | none => raiseOutcome (.inboundOverflow bytes.length) s

/-- R46: drainOutbound; the bytes it returns are the host's. -/
def drainOutbound (maxBytes : Nat) (s : State) : Result State :=
  andThen (s.cmdOut.pop .cmdOut s.cfg.nCmdOut (min maxBytes (s.cmdOut.occupied s.cfg.nCmdOut))) (fun r =>
    .next ((s.setCmdOut r.2).setEnv { s.env with drained := s.env.drained ++ r.1 }))

/-- R170: one move of one agent. -/
def moveStep (m : Move) (s : State) : Result State :=
  match m with
  | .engine => engineStep s
  | .pushInbound bytes => .next (pushInbound bytes s)
  | .drainOutbound n => drainOutbound n s

/-- R170: the next move is the schedule's; with nothing scheduled the engine moves. -/
def nextMove (s : State) : Move := s.env.schedule.headD .engine

/-- The state once the next move is taken off the schedule. -/
def takeMove (s : State) : State := s.setEnv { s.env with schedule := s.env.schedule.tail }

/-- cmdIn holding exactly `bytes`, from its tail on. -/
def inHolding (bytes : List Byte) (s : State) : Ring :=
  { data := memWrite s.cfg.nCmdIn s.cmdIn.data s.cmdIn.tail bytes,
    head := mask s.cfg.nCmdIn (s.cmdIn.tail + bytes.length), tail := s.cmdIn.tail }

/-- The state in which the engine moves next and finds `bytes` as its next instruction: a marker byte in the Idle
phase, any other unit as the whole opcode stream of a checked packet (log 11). -/
def placeInstr (bytes : List Byte) (s : State) : State :=
  let s1 := s.setEnv { s.env with schedule := [] }
  match bytes with
  | [] => s1
  | b :: _ =>
    if isMarker s.cfg b then
      (s1.setCmdIn (inHolding [b] s)).setPkt
        { type := .empty, status := if s.pkt.status = .overflow then .ok else s.pkt.status,
          expectedLength := 0, currentPos := 0 }
    else
      let stream := bytes.take (unitLength s.cfg b)
      (s1.setCmdIn (inHolding (stream ++ [checksumOf stream]) s)).setPkt
        { type := .packet, status := .parsed, expectedLength := BitVec.ofNat 16 (stream.length + 1), currentPos := 0 }

end Sys2Proof.Machine
end

