-- ==== Sys2Proof/Machine/Step.lean ====
section
/-!
DEFINITION. One step of the system: the next agent's move (60_exceptions.md R170).
-/

namespace Sys2Proof.Machine

/-- R170: one step. -/
def step (s : State) : Host.Outcome State Fault Refusal := moveStep (nextMove s) (takeMove s)

/-- `s` with the instruction whose bits are `w` placed where the next step fetches it (log 11). -/
def State.withFetchWord (s : State) (nbits w : Nat) : State := placeInstr (tableBytes nbits w) s

end Sys2Proof.Machine
end

