-- ==== Sys2Proof/Safety.lean ====
section
/-!
DEFINITION. What holds of every state between steps (10_state.md R18, R24, R37; 20_memory.md R61), and when a run has
come to its end (70_reset_and_hazards.md R198).
-/

namespace Sys2Proof.Machine

/-- R61: while a packet is executed, its E bytes lie in cmdIn. -/
abbrev StreamBuffered (s : State) : Prop :=
  phaseOf s.pkt = some .executing → s.pkt.expectedLength.toNat ≤ inCount s

/-- The invariant: legal parameters (R8), both rings as R18 says, PacketState in a row of R24, and R61. -/
abbrev Inv (s : State) : Prop :=
  s.cfg.Wf ∧ s.cmdIn.Wf s.cfg.nCmdIn ∧ s.cmdOut.Wf s.cfg.nCmdOut ∧ (phaseOf s.pkt).isSome = true ∧ StreamBuffered s

/-- R94, R98, R101: the engine's transition is a suspend. -/
def suspended (s : State) : Bool :=
  match phaseOf s.pkt with
  | some .idle => (firstMarker s).isNone
  | some .awaitLength => decide (inCount s < 2)
  | some .awaitBody => decide (inCount s < s.pkt.expectedLength.toNat)
  | some .infoDue => false
  | some .executing => false
  | none => false

/-- R198: the engine is suspended, no producer has bytes to push, and cmdOut is empty or its consumer has stopped. -/
def quiescent (s : State) : Bool :=
  suspended s && s.env.schedule.all (fun m =>
    match m with
    | .engine => true
    | .pushInbound bytes => bytes.isEmpty
    | .drainOutbound _ => (outContent s).isEmpty)

/-- The step answers a next state: it neither faults nor is refused. -/
abbrev Answers (s : State) : Prop := ∃ t, step s = .next t

/-! ### Words for what a step leaves -/

/-- R112: what a response adds to cmdOut's content: all of it where it fits, nothing where it does not. -/
def landed (s : State) (r : List Byte) : List Byte := if r.length ≤ outSpace s then r else []

/-- R112: the event of a response that does not fit. -/
def dropEvents (s : State) (r : List Byte) : List Event :=
  if r.length ≤ outSpace s then [] else [.outcome (.responseDropped r.length)]

/-- R25: PacketState with currentPos past `n` bytes. -/
def pastBytes (s : State) (n : Nat) : PacketState :=
  { s.pkt with currentPos := s.pkt.currentPos + BitVec.ofNat 16 n }

/-- What an opcode of `n` bytes leaves when it makes the events `evs`, answers `r` and leaves the outside world at `e`:
everything else is as before. -/
structure OpcodeLeaves (s : State) (n : Nat) (evs : List Event) (r : List Byte) (e : Env) (t : State) : Prop where
  /-- cmdIn is read, never written (R61). -/
  cmdIn : t.cmdIn = s.cmdIn
  /-- The response stands behind what cmdOut held (R112). -/
  out : outContent t = outContent s ++ landed s r
  /-- Only drainOutbound moves the tail of cmdOut (R19). -/
  outTail : t.cmdOut.tail = s.cmdOut.tail
  /-- currentPos moves past the opcode; the status and the rest stay (R25, R34). -/
  pkt : t.pkt = pastBytes s n
  mode : t.transportMode = s.transportMode
  /-- The events, then a drop where there is one (R171). -/
  history : t.history = s.history ++ evs ++ dropEvents s r
  cfg : t.cfg = s.cfg
  env : t.env = e

/-- R131: the captured value of the j-th transport operation from here: in Tristate no call is made. -/
def callAnswer (s : State) (j : Nat) : U64 :=
  match s.transportMode with
  | .tristate => s.cfg.tristateCapture
  | .jtag => s.env.capture j
  | .icsp => s.env.capture j

/-- The events of calls that are made, the first with the j-th captured value. -/
def eventsFrom (mk : TransportCall → U64 → Event) (e : Env) (j : Nat) (calls : List TransportCall) : List Event :=
  match calls with
  | [] => []
  | c :: rest => mk c (e.capture j) :: eventsFrom mk e (j + 1) rest

/-- R131, R173: the events of a sequence of transport operations. -/
def callEvents (s : State) (calls : List TransportCall) : List Event :=
  match s.transportMode with
  | .tristate => []
  | .jtag => eventsFrom .sendJTAG s.env 0 calls
  | .icsp => eventsFrom .sendICSP s.env 0 calls

/-- The outside world after `n` transport operations. -/
def envAfterCalls (s : State) (n : Nat) : Env :=
  match s.transportMode with
  | .tristate => s.env
  | .jtag => s.env.afterCaptures n
  | .icsp => s.env.afterCaptures n

/-- The state after a sequence of transport operations: events and answers, nothing else (R141). -/
def afterCalls (calls : List TransportCall) (s : State) : State :=
  (s.setHistory (s.history ++ callEvents s calls)).setEnv (envAfterCalls s calls.length)

/-- R135: the call of sendCommand for an ETAP command. -/
def etapCall (p : Params) (c : TapCommand) : TransportCall := commandCall p .etap c

/-- R146: the call of one poll attempt. -/
def pollCall (p : Params) : TransportCall := dataCall p ejtagWidth (p.controlPollWord.setWidth 64)

/-- R149, R151: the calls of a poll that makes `i` attempts, with the selection before it. -/
def pollCalls (p : Params) (i : Nat) : List TransportCall := etapCall p .etapControl :: List.replicate i (pollCall p)

/-- R149, R151: the calls after a poll that read ready: ETAP_DATA, the word `d`, and the re-arm. -/
def exchangeCalls (p : Params) (d : U32) : List TransportCall :=
  [etapCall p .etapData, dataCall p ejtagWidth (d.setWidth 64), etapCall p .etapControl,
    dataCall p ejtagWidth (p.controlRearmWord.setWidth 64)]

/-- R146, R148: attempt `i` of a poll that starts with the next operation's selection reads ready. -/
def attemptReady (s : State) (bit i : Nat) : Prop := (callAnswer s i).getLsbD bit = true

/-- R75: `PIN_CODE`. -/
def pinCode (p : Params) (pin : Pin) : Byte :=
  match pin with
  | .tms => p.pinCodes.tms
  | .tck => p.pinCodes.tck
  | .tdi => p.pinCodes.tdi
  | .tdo => p.pinCodes.tdo
  | .mclr => p.pinCodes.mclr

/-- R75: `DIR_CODE`. -/
def dirCode (p : Params) (d : Direction) : Byte :=
  match d with
  | .input => p.dirCodes.input
  | .output => p.dirCodes.output

/-- R74: `MODE_CODE`. -/
def modeCode (p : Params) (m : TransportMode) : Byte :=
  match m with
  | .tristate => p.modeCodes.tristate
  | .jtag => p.modeCodes.jtag
  | .icsp => p.modeCodes.icsp

/-- R70: how many response bytes an instruction pushes, where it pushes any. -/
def responseBytes (i : Instr) : Nat :=
  match i with
  | .info => 0
  | .packet => 0
  | .getInfo => 128
  | .setSpeed _ => 0
  | .setProgMode _ => 0
  | .setPinIoMode _ _ => 0
  | .setPinWrite _ _ => 0
  | .setPinRead _ => 4
  | .send _ _ _ _ _ _ rd => if rd = 0 then 0 else 8
  | .xferInstruction _ => 8
  | .getPeResponse => 8
  | .unrecognisedByte _ => 0

/-- R173: whether an event is a transport call. -/
def isTransportEvent (e : Event) : Bool :=
  match e with
  | .sendJTAG _ _ => true
  | .sendICSP _ _ => true
  | .gpioSetup _ _ => false
  | .gpioSet _ _ => false
  | .gpioGet _ _ => false
  | .delay _ => false
  | .outcome _ => false

/-- R173: whether an event is a Delay. -/
def isDelayEvent (e : Event) : Bool :=
  match e with
  | .delay _ => true
  | .sendJTAG _ _ => false
  | .sendICSP _ _ => false
  | .gpioSetup _ _ => false
  | .gpioSet _ _ => false
  | .gpioGet _ _ => false
  | .outcome _ => false

/-- R140: the same event with the ICSP function named in place of the JTAG one. -/
def toIcspEvent (e : Event) : Event :=
  match e with
  | .sendJTAG call cap => .sendICSP call cap
  | .sendICSP call cap => .sendICSP call cap
  | .gpioSetup pin d => .gpioSetup pin d
  | .gpioSet pin l => .gpioSet pin l
  | .gpioGet pin lv => .gpioGet pin lv
  | .delay n => .delay n
  | .outcome o => .outcome o

/-- R139: whether an instruction drives the transport. -/
def drivesTransport (i : Instr) : Bool :=
  match i with
  | .info => false
  | .packet => false
  | .getInfo => false
  | .setSpeed _ => false
  | .setProgMode _ => false
  | .setPinIoMode _ _ => false
  | .setPinWrite _ _ => false
  | .setPinRead _ => false
  | .send _ _ _ _ _ _ _ => true
  | .xferInstruction _ => true
  | .getPeResponse => true
  | .unrecognisedByte _ => false

/-- R47: one operation on a ring. -/
inductive RingOp where
  | push (bytes : List Byte)
  | pop (n : Nat)
  deriving DecidableEq, Repr

/-- R47: a sequence of operations on a ring of size N: the bytes popped, the bytes of the pushes that returned Ok, and
the ring at the end; none where a Pop does not respect Occupied. -/
def runRing (N : Nat) (ops : List RingOp) (b : Ring) : Option (List Byte × List Byte × Ring) :=
  match ops with
  | [] => some ([], [], b)
  | .push bytes :: rest =>
    match b.push N bytes with
    | some b' => (runRing N rest b').map (fun r => (r.1, bytes ++ r.2.1, r.2.2))
    | none => runRing N rest b
  | .pop n :: rest =>
    match b.pop .cmdIn N n with
    | .next r0 => (runRing N rest r0.2).map (fun r => (r0.1 ++ r.1, r.2.1, r.2.2))
    | .fault _ => none
    | .refused _ => none

end Sys2Proof.Machine
end

