-- ==== Sys2Proof/Certificates/Slice0/Obligations.lean ====
section
/-!
DEFINITION. The statements for the provers, drawn from the numbered rules of spec/. Every statement over all states
holds for every choice of the parameters of R8 (`cfg`) and for every answer of the oracles. A statement that rests on a
decision of the spec (92_eei_decisions.md D<n>), on an inference the spec marks as its own, or on the model's own choice
(log <n>) says so and has basis "derived".
-/

open Sys2Proof Sys2Proof.Machine

/-! ### Reset, the invariant, and when a step stops -/

/-- R35, R183, by decision D28 (log 8): both rings empty, PacketState Empty/Ok/0/0, Tristate, no history, Idle. -/
def Obligations.ResetIsEmptyIdleTristate : Prop :=
  inContent State.reset = [] ∧ outContent State.reset = [] ∧
  State.reset.cmdIn.head = 0 ∧ State.reset.cmdIn.tail = 0 ∧ State.reset.cmdOut.head = 0 ∧ State.reset.cmdOut.tail = 0 ∧
  State.reset.pkt = { type := .empty, status := .ok, expectedLength := 0, currentPos := 0 } ∧
  State.reset.transportMode = .tristate ∧ State.reset.history = [] ∧ phaseOf State.reset.pkt = some .idle

/-- R18, R24, R35: the state after reset has the invariant (its reset values: D28, log 8; its parameters: log 2). -/
def Obligations.ResetHasInvariant : Prop := Inv State.reset

/-- R18, R24, R37, R61 (inferences the spec marks as derived): every step of every agent keeps the invariant. -/
def Obligations.StepKeepsInvariant : Prop :=
  ∀ s t : State, Inv s → step s = .next t → Inv t

/-- R161 (O8 is unreachable, D31) and "No fatal/abort paths exist in the engine itself": from a state with the
invariant every step answers a next state. A claim of progress: it rests on the premise that every transport, GPIO and
Delay call returns (log 26: DESIGN CHOICE, unsafe; U7, R182, D36). -/
def Obligations.StepNeverStops : Prop :=
  ∀ s : State, Inv s → Answers s

/-- R161, U11 (log 12, log 13): in any state at all, a step stops only by RingUnderflow of cmdIn, or by refusing a
PacketState that is in no row of R24. -/
def Obligations.OnlyTwoReasonsToStop : Prop :=
  ∀ s : State,
    (∀ f, step s = .fault f → ∃ n, f = .ringUnderflow .cmdIn n) ∧
    (∀ r, step s = .refused r → r = .unreachablePacketState ∧ phaseOf s.pkt = none)

/-! ### Rings -/

/-- R40: Occupied and SpaceLeft; R18's bounds on them. -/
def Obligations.OccupiedAndSpaceLeft : Prop :=
  ∀ (k : Nat) (b : Ring), b.head < 2 ^ k → b.tail < 2 ^ k →
    b.occupied (2 ^ k) = (b.head + 2 ^ k - b.tail) % 2 ^ k ∧
    b.spaceLeft (2 ^ k) = (2 ^ k - 1) - b.occupied (2 ^ k) ∧
    b.occupied (2 ^ k) ≤ 2 ^ k - 1 ∧
    (b.occupied (2 ^ k) = 0 ↔ b.head = b.tail)

/-- R42: Push writes all of its bytes behind the content, or nothing; it touches no other byte of the array. -/
def Obligations.PushIsAllOrNothing : Prop :=
  ∀ (k : Nat) (b : Ring) (bytes : List Byte), b.Wf (2 ^ k) →
    (bytes.length ≤ b.spaceLeft (2 ^ k) →
      ∃ b', b.push (2 ^ k) bytes = some b' ∧ b'.Wf (2 ^ k) ∧ b'.content (2 ^ k) = b.content (2 ^ k) ++ bytes ∧
        b'.head = (b.head + bytes.length) % 2 ^ k ∧ b'.tail = b.tail ∧
        (∀ a, (∀ j < bytes.length, a ≠ mask (2 ^ k) (b.head + j)) → b'.data.read a = b.data.read a)) ∧
    (b.spaceLeft (2 ^ k) < bytes.length → b.push (2 ^ k) bytes = none) ∧
    b.push (2 ^ k) [] = some b

/-- R43: Pop returns and consumes the oldest bytes; beyond Occupied it is RingUnderflow (D31). -/
def Obligations.PopTakesOldestOrUnderflows : Prop :=
  ∀ (k : Nat) (name : RingName) (b : Ring) (n : Nat), b.Wf (2 ^ k) →
    (n ≤ b.occupied (2 ^ k) →
      ∃ b', b.pop name (2 ^ k) n = .next ((b.content (2 ^ k)).take n, b') ∧ b'.Wf (2 ^ k) ∧
        b'.content (2 ^ k) = (b.content (2 ^ k)).drop n ∧ b'.data = b.data ∧ b'.head = b.head) ∧
    (b.occupied (2 ^ k) < n → b.pop name (2 ^ k) n = .fault (.ringUnderflow name n))

/-- R44: Peek reads a part of the content, across the wrap; beyond Occupied it is RingUnderflow (D31). -/
def Obligations.PeekReadsContentOrUnderflows : Prop :=
  ∀ (k : Nat) (name : RingName) (b : Ring) (off n : Nat),
    (off + n ≤ b.occupied (2 ^ k) → b.peek name (2 ^ k) off n = .next (((b.content (2 ^ k)).drop off).take n)) ∧
    (b.occupied (2 ^ k) < off + n → b.peek name (2 ^ k) off n = .fault (.ringUnderflow name (off + n)))

/-- R47 (an inference the spec marks as derived): what is popped, then what the ring still holds, is what it held, then
what was pushed with Ok; from an empty ring, the bytes popped are a prefix of the bytes accepted. -/
def Obligations.RingFifoLaw : Prop :=
  ∀ (k : Nat) (ops : List RingOp) (b b' : Ring) (popped accepted : List Byte), b.Wf (2 ^ k) →
    runRing (2 ^ k) ops b = some (popped, accepted, b') →
    b.content (2 ^ k) ++ accepted = popped ++ b'.content (2 ^ k) ∧ b'.Wf (2 ^ k) ∧
    (b.content (2 ^ k) = [] → popped <+: accepted)

/-! ### The agents -/

/-- R170 (D36; the schedule is the model's, log 5): a step is the next agent's move. -/
def Obligations.StepIsTheNextAgentsMove : Prop :=
  ∀ s : State,
    (s.env.schedule = [] → step s = engineStep s) ∧
    (∀ rest, s.env.schedule = .engine :: rest → step s = engineStep (takeMove s)) ∧
    (∀ bytes rest, s.env.schedule = .pushInbound bytes :: rest → step s = .next (pushInbound bytes (takeMove s))) ∧
    (∀ n rest, s.env.schedule = .drainOutbound n :: rest → step s = drainOutbound n (takeMove s))

/-- R45, R163: pushInbound appends all of its bytes to cmdIn, or leaves cmdIn unchanged; the Overflow is recorded as O2
(R161, D38; log 9). Nothing else changes. -/
def Obligations.PushInboundAppendsOrOverflows : Prop :=
  ∀ (s : State) (bytes : List Byte), s.cmdIn.Wf s.cfg.nCmdIn →
    (bytes.length ≤ s.cmdIn.spaceLeft s.cfg.nCmdIn →
      inContent (pushInbound bytes s) = inContent s ++ bytes ∧
      pushInbound bytes s = s.setCmdIn (pushInbound bytes s).cmdIn) ∧
    (s.cmdIn.spaceLeft s.cfg.nCmdIn < bytes.length →
      pushInbound bytes s = s.setHistory (s.history ++ [.outcome (.inboundOverflow bytes.length)]))

/-- R46 (D32; the record of drained bytes is the model's, log 6): drainOutbound returns the oldest bytes of cmdOut, at
most `n` of them, and nothing else changes. -/
def Obligations.DrainOutboundReturnsOldest : Prop :=
  ∀ (s : State) (n : Nat), s.cmdOut.Wf s.cfg.nCmdOut →
    ∃ t, drainOutbound n s = .next t ∧ t.env.drained = s.env.drained ++ (outContent s).take n ∧
      outContent t = (outContent s).drop n ∧ t.cmdOut.data = s.cmdOut.data ∧ t.cmdOut.head = s.cmdOut.head ∧
      t = (s.setCmdOut t.cmdOut).setEnv { s.env with drained := t.env.drained }

/-- R47, R56, R113: what the host has drained, then what cmdOut holds, only ever grows at its end. -/
def Obligations.OutputIsNeverLostOrReordered : Prop :=
  ∀ s t : State, Inv s → step s = .next t →
    (s.env.drained ++ outContent s) <+: (t.env.drained ++ outContent t)

/-- R107, R170 (inferences the spec marks as derived; the interleaving: D36, log 5): a push that fits commutes with
every transition of the engine that is not a suspend: the engine does the same whether the bytes arrive before it or
after it. -/
def Obligations.ArrivalCommutesWithEngine : Prop :=
  ∀ (s t : State) (bytes : List Byte), Inv s → suspended s = false →
    bytes.length ≤ s.cmdIn.spaceLeft s.cfg.nCmdIn → engineStep s = .next t →
    engineStep (pushInbound bytes s) = .next (pushInbound bytes t)

/-! ### The framer -/

/-- R94: with no marker buffered, nothing changes; and where the stray bytes fill cmdIn, every push of a byte or more
overflows. -/
def Obligations.StrayBytesSuspend : Prop :=
  ∀ s : State, phaseOf s.pkt = some .idle →
    (∀ b ∈ inContent s, b ≠ s.cfg.markPacket ∧ b ≠ s.cfg.markInfo) →
    engineStep s = .next s ∧
    (inCount s = s.cfg.nCmdIn - 1 → ∀ bytes : List Byte, bytes ≠ [] → s.cmdIn.push s.cfg.nCmdIn bytes = none)

/-- R95 (status Ok: D13): SCAN-PACKET, the meaning of PACKET: the stray bytes and the marker are consumed and a packet
begins; cmdIn's bytes and everything else stay. -/
def Obligations.PacketMarkerBeginsPacket : Prop :=
  ∀ (s : State) (strays rest : List Byte), s.cmdIn.Wf s.cfg.nCmdIn → phaseOf s.pkt = some .idle →
    (∀ b ∈ strays, b ≠ s.cfg.markPacket ∧ b ≠ s.cfg.markInfo) →
    inContent s = strays ++ s.cfg.markPacket :: rest →
    ∃ t, engineStep s = .next t ∧ exec .packet s = .next t ∧ inContent t = rest ∧
      t.pkt = { type := .packet, status := .ok, expectedLength := 0, currentPos := 0 } ∧
      t.cmdIn.data = s.cmdIn.data ∧ t.cmdIn.head = s.cmdIn.head ∧ t = (s.setCmdIn t.cmdIn).setPkt t.pkt

/-- R96: SCAN-INFO, the meaning of INFO: the stray bytes and the marker are consumed and the reply is due; the status
and everything else stay. -/
def Obligations.InfoMarkerMakesReplyDue : Prop :=
  ∀ (s : State) (strays rest : List Byte), s.cmdIn.Wf s.cfg.nCmdIn → s.cfg.markPacket ≠ s.cfg.markInfo →
    phaseOf s.pkt = some .idle →
    (∀ b ∈ strays, b ≠ s.cfg.markPacket ∧ b ≠ s.cfg.markInfo) →
    inContent s = strays ++ s.cfg.markInfo :: rest →
    ∃ t, engineStep s = .next t ∧ exec .info s = .next t ∧ inContent t = rest ∧
      t.pkt = { s.pkt with type := .info } ∧ phaseOf t.pkt = some .infoDue ∧
      t.cmdIn.data = s.cmdIn.data ∧ t.cmdIn.head = s.cmdIn.head ∧ t = (s.setCmdIn t.cmdIn).setPkt t.pkt

/-- R97 (a reply that does not fit is dropped: D12, D38; the status stays: D13, log 24): INFO-REPLY pushes
INFO_BLOCK of the mode, 128 bytes, and the decoder is Idle again. -/
def Obligations.InfoReplyIsPushed : Prop :=
  ∀ s : State, s.cmdOut.Wf s.cfg.nCmdOut → phaseOf s.pkt = some .infoDue →
    ∃ t, engineStep s = .next t ∧ (infoReplyBytes s).length = 128 ∧
      outContent t = outContent s ++ landed s (infoReplyBytes s) ∧
      t.history = s.history ++ dropEvents s (infoReplyBytes s) ∧
      t.pkt = { s.pkt with type := .empty } ∧ phaseOf t.pkt = some .idle ∧
      t.cmdOut.tail = s.cmdOut.tail ∧
      t = ((s.setCmdOut t.cmdOut).setHistory t.history).setPkt t.pkt

/-- R98, R101: with too few bytes for the length field or for the packet, the engine's transition changes nothing. -/
def Obligations.TooFewBytesSuspend : Prop :=
  ∀ s : State,
    (phaseOf s.pkt = some .awaitLength → inCount s < 2 → engineStep s = .next s) ∧
    (phaseOf s.pkt = some .awaitBody → inCount s < s.pkt.expectedLength.toNat → engineStep s = .next s)

/-- R99 (the length bytes are popped when read: D14) and R100: LENGTH-READ; a field of 0 leaves the phase AwaitLength.
-/
def Obligations.LengthFieldIsRead : Prop :=
  ∀ (s : State) (lo hi : Byte) (rest : List Byte), s.cmdIn.Wf s.cfg.nCmdIn →
    phaseOf s.pkt = some .awaitLength → inContent s = lo :: hi :: rest →
    ∃ t, engineStep s = .next t ∧ inContent t = rest ∧
      t.pkt = { s.pkt with expectedLength := BitVec.ofNat 16 (lo.toNat + 256 * hi.toNat) } ∧
      phaseOf t.pkt = (if lo = 0 ∧ hi = 0 then some .awaitLength else some .awaitBody) ∧
      t.cmdIn.data = s.cmdIn.data ∧ t.cmdIn.head = s.cmdIn.head ∧ t = (s.setCmdIn t.cmdIn).setPkt t.pkt

/-- R102, R103 (D15): a packet whose checksum byte is the sum of its stream is accepted; nothing is consumed. -/
def Obligations.MatchingChecksumAccepts : Prop :=
  ∀ (s : State) (stream rest : List Byte), phaseOf s.pkt = some .awaitBody →
    inContent s = stream ++ checksumOf stream :: rest → stream.length + 1 = s.pkt.expectedLength.toNat →
    engineStep s = .next (s.setPkt { s.pkt with status := .parsed, currentPos := 0 }) ∧
      phaseOf { s.pkt with status := .parsed, currentPos := 0 } = some .executing

/-- R104, R162 (the outcome is recorded: D38; the status stays Error once the type is Empty: D13, log 24): a packet with
another checksum byte is discarded whole, with status Error and no response and no call. -/
def Obligations.WrongChecksumDiscards : Prop :=
  ∀ (s : State) (stream rest : List Byte) (c : Byte), s.cmdIn.Wf s.cfg.nCmdIn → phaseOf s.pkt = some .awaitBody →
    inContent s = stream ++ c :: rest → stream.length + 1 = s.pkt.expectedLength.toNat → c ≠ checksumOf stream →
    ∃ t, engineStep s = .next t ∧ inContent t = rest ∧
      t.pkt = { type := .empty, status := .error, expectedLength := 0, currentPos := 0 } ∧
      t.history = s.history ++ [.outcome (.checksumMismatch (checksumOf stream) c)] ∧
      t.cmdIn.data = s.cmdIn.data ∧ t.cmdIn.head = s.cmdIn.head ∧
      t = ((s.setCmdIn t.cmdIn).setHistory t.history).setPkt t.pkt

/-- R67: the checksum is the 8-bit unsigned sum of the opcode-stream bytes. -/
def Obligations.ChecksumIsByteSum : Prop :=
  ∀ stream : List Byte, (checksumOf stream).toNat = (stream.map BitVec.toNat).sum % 256

/-- 95_test_vectors.md S6, 90_conflicts.md C10: flipping any single bit of an opcode stream changes its checksum. -/
def Obligations.ChecksumDetectsBitFlip : Prop :=
  ∀ (before after : List Byte) (b : Byte) (k : Nat), k < 8 →
    checksumOf (before ++ (b ^^^ (1 <<< k)) :: after) ≠ checksumOf (before ++ b :: after)

/-- R105 (that the status stays after the return to Empty: D13, log 24: DESIGN CHOICE, unsafe): RETIRE: at the end of
the stream the packet's E bytes are consumed, the decoder is Idle, the status stays. -/
def Obligations.FinishedPacketRetires : Prop :=
  ∀ s : State, s.cmdIn.Wf s.cfg.nCmdIn → phaseOf s.pkt = some .executing →
    streamLength s.pkt ≤ s.pkt.currentPos.toNat → s.pkt.expectedLength.toNat ≤ inCount s →
    ∃ t, engineStep s = .next t ∧ inContent t = (inContent s).drop s.pkt.expectedLength.toNat ∧
      t.pkt = { s.pkt with type := .empty, expectedLength := 0, currentPos := 0 } ∧ phaseOf t.pkt = some .idle ∧
      t.cmdIn.data = s.cmdIn.data ∧ t.cmdIn.head = s.cmdIn.head ∧ t = (s.setCmdIn t.cmdIn).setPkt t.pkt

/-- R106, R189 (inferences the spec marks as derived): a packet longer than N_CMDIN − 1 is never checked. -/
def Obligations.OversizePacketNeverAccepted : Prop :=
  ∀ s : State, phaseOf s.pkt = some .awaitBody → s.cfg.nCmdIn - 1 < s.pkt.expectedLength.toNat →
    engineStep s = .next s ∧ ∀ bytes, engineStep (pushInbound bytes s) = .next (pushInbound bytes s)

/-- S7, R95, R99, R103 (D13 to D15, log 24, log 25, log 28): from Idle, three engine transitions take a frame, after any
stray bytes, to its execution: status Parsed, and the exact opcode stream, its checksum and the bytes behind it at the
head of cmdIn. -/
def Obligations.ValidFrameReachesExecutor : Prop :=
  ∀ (s : State) (strays stream rest : List Byte), s.cmdIn.Wf s.cfg.nCmdIn → s.env.schedule = [] →
    phaseOf s.pkt = some .idle → (∀ b ∈ strays, b ≠ s.cfg.markPacket ∧ b ≠ s.cfg.markInfo) →
    stream.length + 1 < 65536 → inContent s = strays ++ encodePacket s.cfg stream ++ rest →
    ∃ t, Host.Core.run core 3 s = .next t ∧ phaseOf t.pkt = some .executing ∧
      t.pkt = { type := .packet, status := .parsed, expectedLength := BitVec.ofNat 16 (stream.length + 1), currentPos := 0 } ∧
      inContent t = stream ++ checksumOf stream :: rest ∧
      t.cmdIn.data = s.cmdIn.data ∧ t = (s.setCmdIn t.cmdIn).setPkt t.pkt

/-! ### The executor -/

/-- R93, R109 (D15): a step runs the decoded instruction: at Idle the first marker, in a packet the unit that the
decoder reads at currentPos in what is left of the opcode stream. `takeMove` takes the engine's own move off the
schedule (log 5) and changes nothing where nothing is scheduled. -/
def Obligations.StepRunsDecodedInstruction : Prop :=
  ∀ s : State, nextMove s = .engine →
    (∀ i, phaseOf s.pkt = some .idle → firstMarker s = some i → step s = exec i (takeMove s)) ∧
    (∀ i rest, phaseOf s.pkt = some .executing → s.pkt.currentPos.toNat < streamLength s.pkt →
      s.pkt.expectedLength.toNat ≤ inCount s →
      decode s.cfg (((inContent s).drop s.pkt.currentPos.toNat).take (streamLength s.pkt - s.pkt.currentPos.toNat)) =
        .unit i rest →
      step s = exec i (takeMove s))

/-- R111 (D11; recorded: D38): a recognised opcode whose operands run past the stream ends the scan. -/
def Obligations.TruncatedOpcodeEndsScan : Prop :=
  ∀ (s : State) (op : Opcode), phaseOf s.pkt = some .executing → s.pkt.currentPos.toNat < streamLength s.pkt →
    s.pkt.expectedLength.toNat ≤ inCount s →
    decode s.cfg (((inContent s).drop s.pkt.currentPos.toNat).take (streamLength s.pkt - s.pkt.currentPos.toNat)) =
      .truncated op →
    engineStep s = .next ((s.setHistory (s.history ++ [.outcome (.truncatedOpcode op)])).setPkt
      { s.pkt with currentPos := BitVec.ofNat 16 (streamLength s.pkt) })

/-- R25, R123 (inferences the spec marks as derived): each EXEC-STEP moves currentPos forward, never past the stream's
end, and changes no other field of PacketState. -/
def Obligations.CurrentPosMovesForward : Prop :=
  ∀ s t : State, Inv s → phaseOf s.pkt = some .executing → s.pkt.currentPos.toNat < streamLength s.pkt →
    engineStep s = .next t →
    s.pkt.currentPos.toNat < t.pkt.currentPos.toNat ∧ t.pkt.currentPos.toNat ≤ streamLength s.pkt ∧
    t.pkt = { s.pkt with currentPos := t.pkt.currentPos }

/-- R122, R123 (an inference the spec marks as derived; that the status stays Parsed: D13, log 24): whatever its opcodes
do, a packet being executed is retired after at most L − c + 1 engine transitions, with status Parsed and exactly its E
bytes consumed. A claim of progress: it rests on the premise that every transport, GPIO and Delay call returns (log 26:
DESIGN CHOICE, unsafe; U7, R182, D36). -/
def Obligations.PacketExecutionEnds : Prop :=
  ∀ s : State, Inv s → s.env.schedule = [] → phaseOf s.pkt = some .executing →
    ∃ n t, n ≤ streamLength s.pkt - s.pkt.currentPos.toNat + 1 ∧ Host.Core.run core n s = .next t ∧
      phaseOf t.pkt = some .idle ∧ t.pkt.status = .parsed ∧
      inContent t = (inContent s).drop s.pkt.expectedLength.toNat

/-- R110 (recorded: D38): an unrecognised byte is a no-op of one byte; only UnknownOpcode is recorded. -/
def Obligations.UnrecognisedByteIsSkipped : Prop :=
  ∀ (s : State) (b : Byte), exec (.unrecognisedByte b) s =
    .next ((s.setHistory (s.history ++ [.outcome (.unknownOpcode b)])).setPkt (pastBytes s 1))

/-- R114 (a response that does not fit is dropped: D12, D38): GET_INFO answers INFO_BLOCK of the mode, 128 bytes. -/
def Obligations.GetInfoAnswersInfoBlock : Prop :=
  ∀ s : State, s.cmdOut.Wf s.cfg.nCmdOut →
    ∃ t, exec .getInfo s = .next t ∧ (infoReplyBytes s).length = 128 ∧ OpcodeLeaves s 1 [] (infoReplyBytes s) s.env t

/-- R115 (D10): SET_SPEED changes nothing but currentPos, whatever its operand. -/
def Obligations.SetSpeedIsIgnored : Prop :=
  ∀ (s : State) (khz : U16), exec (.setSpeed khz) s = .next (s.setPkt (pastBytes s 3))

/-- R116 (D7; recorded: D38): SET_PROG_MODE of a mode's code sets that mode; any other byte is InvalidOperand. -/
def Obligations.SetProgModeSelectsMode : Prop :=
  ∀ (s : State) (m : Byte), s.cfg.Wf →
    (∀ x, m = modeCode s.cfg x → exec (.setProgMode m) s = .next ((s.setMode x).setPkt (pastBytes s 2))) ∧
    ((∀ x, m ≠ modeCode s.cfg x) → exec (.setProgMode m) s =
      .next ((s.setHistory (s.history ++ [.outcome (.invalidOperand .setProgMode [m])])).setPkt (pastBytes s 2)))

/-- R117 (D8; recorded: D38): SET_PIN_IO_MODE of a pin's and a direction's code emits GpioSetup; otherwise
InvalidOperand, and no call. -/
def Obligations.SetPinIoModeEmitsSetup : Prop :=
  ∀ (s : State) (pin dir : Byte), s.cfg.Wf →
    (∀ p d, pin = pinCode s.cfg p → dir = dirCode s.cfg d → exec (.setPinIoMode pin dir) s =
      .next ((s.setHistory (s.history ++ [.gpioSetup p d])).setPkt (pastBytes s 3))) ∧
    ((∀ p, pin ≠ pinCode s.cfg p) ∨ (∀ d, dir ≠ dirCode s.cfg d) → exec (.setPinIoMode pin dir) s =
      .next ((s.setHistory (s.history ++ [.outcome (.invalidOperand .setPinIoMode [pin, dir])])).setPkt (pastBytes s 3)))

/-- R118 (D8, D9; recorded: D38): SET_PIN_WRITE of a pin's code drives it low for 0 and high for any other byte;
otherwise InvalidOperand, and no call. -/
def Obligations.SetPinWriteDrivesPin : Prop :=
  ∀ (s : State) (pin level : Byte), s.cfg.Wf →
    (∀ p, pin = pinCode s.cfg p → exec (.setPinWrite pin level) s =
      .next ((s.setHistory (s.history ++ [.gpioSet p (if level = 0 then .low else .high)])).setPkt (pastBytes s 3))) ∧
    ((∀ p, pin ≠ pinCode s.cfg p) → exec (.setPinWrite pin level) s =
      .next ((s.setHistory (s.history ++ [.outcome (.invalidOperand .setPinWrite [pin])])).setPkt (pastBytes s 3)))

/-- R119 (D8, D9; the response's byte order: D5, log 15; a response that does not fit: D12, D38; the answer of the
driver: log 4): SET_PIN_READ answers the pin's level as 0 or 1 in four bytes, the least significant first; for another
byte InvalidOperand and 0. -/
def Obligations.SetPinReadAnswersLevel : Prop :=
  ∀ (s : State) (pin : Byte), s.cfg.Wf → s.cmdOut.Wf s.cfg.nCmdOut →
    (∀ p, pin = pinCode s.cfg p → ∃ t, exec (.setPinRead pin) s = .next t ∧
      OpcodeLeaves s 2 [.gpioGet p s.env.level] (if s.env.level = 0 then [0, 0, 0, 0] else [1, 0, 0, 0])
        s.env.afterLevel t) ∧
    ((∀ p, pin ≠ pinCode s.cfg p) → ∃ t, exec (.setPinRead pin) s = .next t ∧
      OpcodeLeaves s 2 [.outcome (.invalidOperand .setPinRead [pin])] [0, 0, 0, 0] s.env t)

/-- R120, R121 (the response's byte order: D5, log 15; Tristate: D16; out of range: D37; a drop: D12, D38; the captured
value: log 4): SEND makes one transport call with the host's fields unchanged, and answers the captured value in eight
bytes where the read flag is set. -/
def Obligations.SendMakesOneRawCall : Prop :=
  ∀ (s : State) (pn : U32) (pv : U64) (dn : U32) (dv : U64) (en : U32) (ev : U64) (rd : U32),
    s.cmdOut.Wf s.cfg.nCmdOut →
    ∃ t, exec (.send pn pv dn dv en ev rd) s = .next t ∧
      OpcodeLeaves s 29
        (callEvents s [{ pn := pn.toNat, pv := pv, dn := dn.toNat, dv := dv, en := en.toNat, ev := ev }])
        (if rd = 0 then [] else bytesLE 8 (callAnswer s 0).toNat) (envAfterCalls s 1) t

/-! ### The TAP encoder and the polls -/

/-- R135 and R131 (Tristate: D16): sendCommand of a command in the domain of FAMILY makes one call of the command
shape, in the function of the mode, and discards the captured value; in Tristate it makes none. -/
def Obligations.SendCommandMakesOneCall : Prop :=
  ∀ (s : State) (c : TapCommand) (f : Family) (call : TransportCall), familyOf s.cfg c = some f →
    call = { pn := (hdrCmd s.cfg f).nbits, pv := (hdrCmd s.cfg f).value, dn := 5, dv := (codeOf s.cfg c).setWidth 64,
             en := (ftrCmd s.cfg f).nbits, ev := (ftrCmd s.cfg f).value } →
    (s.transportMode = .jtag → sendCommand c s =
      .next ((s.setHistory (s.history ++ [.sendJTAG call (s.env.capture 0)])).setEnv (s.env.afterCaptures 1))) ∧
    (s.transportMode = .icsp → sendCommand c s =
      .next ((s.setHistory (s.history ++ [.sendICSP call (s.env.capture 0)])).setEnv (s.env.afterCaptures 1))) ∧
    (s.transportMode = .tristate → sendCommand c s = .next s)

/-- R137, R138: xferData makes its call whatever the read flag is; it returns the captured value where the flag is set
and 0 where it is not (Tristate: D16). -/
def Obligations.XferDataReturnsCaptureIfRead : Prop :=
  ∀ (s : State) (n : Nat) (d : U64) (rd : Bool) (call : TransportCall),
    call = { pn := s.cfg.hdrData.nbits, pv := s.cfg.hdrData.value, dn := n, dv := d,
             en := s.cfg.ftrData.nbits, ev := s.cfg.ftrData.value } →
    (s.transportMode = .jtag → xferData n d rd s =
      (if rd then s.env.capture 0 else 0,
        (s.setHistory (s.history ++ [.sendJTAG call (s.env.capture 0)])).setEnv (s.env.afterCaptures 1))) ∧
    (s.transportMode = .icsp → xferData n d rd s =
      (if rd then s.env.capture 0 else 0,
        (s.setHistory (s.history ++ [.sendICSP call (s.env.capture 0)])).setEnv (s.env.afterCaptures 1))) ∧
    (s.transportMode = .tristate → xferData n d rd s = (if rd then s.cfg.tristateCapture else 0, s))

/-- R147 (the poll's call: D23; ready means 1: D22; bit i of a capture: D17, log 30; Tristate: D16): pollReady makes at
least 1 and at most 40 attempts, and exactly 40 where it times out; each attempt is one operation of the poll's call,
and the poll ends at the first that reads the bit as 1. -/
def Obligations.PollMakesOneToFortyAttempts : Prop :=
  ∀ (s t : State) (bit : Nat) (r : Option Nat), pollReady bit s = (r, t) →
    (r = none → t = afterCalls (List.replicate 40 (pollCall s.cfg)) s ∧
      ∀ j < 40, (callAnswer s j).getLsbD bit = false) ∧
    (∀ i, r = some i → 1 ≤ i ∧ i ≤ 40 ∧ t = afterCalls (List.replicate i (pollCall s.cfg)) s ∧
      (∀ j < i - 1, (callAnswer s j).getLsbD bit = false) ∧ (callAnswer s (i - 1)).getLsbD bit = true)

/-- R149 (D16, D22 to D24; a drop: D12, D38; captured values: log 4; bit i of a capture: D17, log 30; the number of
calls, 5 + i: log 20): where the poll of PROBEN reads ready at attempt i, XFER_INSTRUCTION shifts the word and re-arms
control, and answers 0. -/
def Obligations.XferInstructionShiftsWordWhenReady : Prop :=
  ∀ (s : State) (w : U32) (i : Nat), s.cmdOut.Wf s.cfg.nCmdOut → 1 ≤ i → i ≤ 40 →
    (∀ j, 1 ≤ j → j < i → ¬ attemptReady s s.cfg.probenBit j) → attemptReady s s.cfg.probenBit i →
    ∃ t, exec (.xferInstruction w) s = .next t ∧
      OpcodeLeaves s 5 (callEvents s (pollCalls s.cfg i ++ exchangeCalls s.cfg w)) [0, 0, 0, 0, 0, 0, 0, 0]
        (envAfterCalls s (5 + i)) t

/-- R150 (D16, D21 to D24; recorded: D38; a drop: D12; the sentinel's eight bytes little-endian: D5, log 15: DESIGN
CHOICE, unsafe; captured values: log 4; bit i of a capture: D17, log 30): where no attempt reads PROBEN ready,
XFER_INSTRUCTION has made the selection and exactly 40 attempts, records PollTimeout, answers the sentinel and does
nothing else. -/
def Obligations.XferInstructionTimesOut : Prop :=
  ∀ (s : State) (w : U32), s.cmdOut.Wf s.cfg.nCmdOut →
    (∀ j, 1 ≤ j → j ≤ 40 → ¬ attemptReady s s.cfg.probenBit j) →
    ∃ t, exec (.xferInstruction w) s = .next t ∧
      OpcodeLeaves s 5 (callEvents s (pollCalls s.cfg 40) ++ [.outcome (.pollTimeout .xferInstruction)])
        (bytesLE 8 s.cfg.failSentinel.toNat) (envAfterCalls s 41) t

/-- R151 (D16, D22, D23, D25, D26; a drop: D12, D38; the response's eight bytes little-endian: D5, log 15: DESIGN
CHOICE, unsafe; captured values: log 4; bit i of a capture: D17, log 30; the number of calls: log 20): after one Delay,
where the poll of PRACC reads ready at attempt i, GET_PE_RESPONSE reads the response, re-arms control and answers bits
31..0, zero-extended. -/
def Obligations.GetPeResponseAnswersWhenReady : Prop :=
  ∀ (s : State) (i : Nat), s.cmdOut.Wf s.cfg.nCmdOut → 1 ≤ i → i ≤ 40 →
    (∀ j, 1 ≤ j → j < i → ¬ attemptReady s s.cfg.praccBit j) → attemptReady s s.cfg.praccBit i →
    ∃ t, exec .getPeResponse s = .next t ∧
      OpcodeLeaves s 1
        (.delay s.cfg.peSettleTicks :: callEvents s (pollCalls s.cfg i ++ exchangeCalls s.cfg s.cfg.peReadTdiWord))
        (bytesLE 8 ((callAnswer s (i + 2)).toNat % 2 ^ 32)) (envAfterCalls s (5 + i)) t

/-- R152 (D16, D21 to D23, D25, D26; recorded: D38; a drop: D12; the sentinel's eight bytes little-endian: D5, log 15:
DESIGN CHOICE, unsafe; captured values: log 4; bit i of a capture: D17, log 30): where no attempt reads PRACC ready,
GET_PE_RESPONSE has made one Delay, the selection and exactly 40 attempts, records PollTimeout, answers the sentinel and
does nothing else. -/
def Obligations.GetPeResponseTimesOut : Prop :=
  ∀ s : State, s.cmdOut.Wf s.cfg.nCmdOut →
    (∀ j, 1 ≤ j → j ≤ 40 → ¬ attemptReady s s.cfg.praccBit j) →
    ∃ t, exec .getPeResponse s = .next t ∧
      OpcodeLeaves s 1
        (.delay s.cfg.peSettleTicks :: (callEvents s (pollCalls s.cfg 40) ++ [.outcome (.pollTimeout .getPeResponse)]))
        (bytesLE 8 s.cfg.failSentinel.toNat) (envAfterCalls s 41) t

/-- R154 (an inference the spec marks as derived; D16, D21 to D23, D26; recorded: D38; a drop: D12; the sentinel's eight
bytes little-endian: D5, log 15: DESIGN CHOICE, unsafe): in Tristate, where TRISTATE_CAPTURE has the bit clear, both
polls time out, make no transport call and answer the sentinel. -/
def Obligations.TristatePollsTimeOutSilently : Prop :=
  ∀ (s : State) (w : U32), s.cmdOut.Wf s.cfg.nCmdOut → s.transportMode = .tristate →
    (s.cfg.tristateCapture.getLsbD s.cfg.probenBit = false →
      ∃ t, exec (.xferInstruction w) s = .next t ∧
        OpcodeLeaves s 5 [.outcome (.pollTimeout .xferInstruction)] (bytesLE 8 s.cfg.failSentinel.toNat) s.env t) ∧
    (s.cfg.tristateCapture.getLsbD s.cfg.praccBit = false →
      ∃ t, exec .getPeResponse s = .next t ∧
        OpcodeLeaves s 1 [.delay s.cfg.peSettleTicks, .outcome (.pollTimeout .getPeResponse)]
          (bytesLE 8 s.cfg.failSentinel.toNat) s.env t)

/-- R140 (an inference the spec marks as derived): in ICSP mode every transport-driving opcode does what it does in JTAG
mode, with the same arguments, answers and response; only the function its events name differs. -/
def Obligations.JtagAndIcspMakeSameCalls : Prop :=
  ∀ (s : State) (i : Instr), drivesTransport i = true → s.transportMode = .jtag →
    ∃ t u, exec i s = .next t ∧ exec i (s.setMode .icsp) = .next u ∧
      u = (t.setMode .icsp).setHistory (s.history ++ (t.history.drop s.history.length).map toIcspEvent)

/-- R123 (an inference the spec marks as derived; the count: C13): one instruction makes at most 45 transport calls and
at most one Delay, and only appends to the history. -/
def Obligations.TransportCallsAreBounded : Prop :=
  ∀ (i : Instr) (s t : State), exec i s = .next t →
    ∃ evs, t.history = s.history ++ evs ∧ evs.countP isTransportEvent ≤ 45 ∧ evs.countP isDelayEvent ≤ 1

/-! ### Frames -/

/-- R19, R26, R34, R36, R61 (recorded answers and events: the model's `env`, log 4): what every opcode-stream unit
leaves unchanged when it completes: cmdIn whole; PacketState but currentPos; the transport mode, unless it is
SET_PROG_MODE; the parameters; the schedule and the drained bytes; the tail of cmdOut; and every byte of cmdOut's array
but the response's, which stand from its head on. -/
def Obligations.StreamUnitFrame : Prop :=
  ∀ (i : Instr) (s t : State), i.isStreamUnit = true → exec i s = .next t →
    t.cmdIn = s.cmdIn ∧ t.pkt = { s.pkt with currentPos := t.pkt.currentPos } ∧
    (t.transportMode ≠ s.transportMode → ∃ m, i = .setProgMode m) ∧
    t.cfg = s.cfg ∧ t.env.schedule = s.env.schedule ∧ t.env.drained = s.env.drained ∧
    t.cmdOut.tail = s.cmdOut.tail ∧
    (∀ a, (∀ j < responseBytes i, a ≠ mask s.cfg.nCmdOut (s.cmdOut.head + j)) →
      t.cmdOut.data.read a = s.cmdOut.data.read a) ∧
    (∃ evs, t.history = s.history ++ evs)

/-- R110, R113, R115 to R118: the units with no response leave cmdOut whole and ask the oracles nothing; so does a SEND
with a clear read flag leave cmdOut whole (R120). -/
def Obligations.UnitsWithoutResponseLeaveOutput : Prop :=
  ∀ (i : Instr) (s t : State), i.isStreamUnit = true → responseBytes i = 0 → exec i s = .next t →
    t.cmdOut = s.cmdOut ∧ (drivesTransport i = false → t.env = s.env)

/-- R95, R96: what a marker leaves unchanged when it completes: the array and the head of cmdIn (only its tail moves),
cmdOut, the mode, the history, the parameters and the outside world; INFO also leaves every field of PacketState but
the type. -/
def Obligations.MarkerFrame : Prop :=
  ∀ (i : Instr) (s t : State), i = .info ∨ i = .packet → exec i s = .next t →
    t.cmdIn.data = s.cmdIn.data ∧ t.cmdIn.head = s.cmdIn.head ∧ t.cmdOut = s.cmdOut ∧
    t.transportMode = s.transportMode ∧ t.history = s.history ∧ t.cfg = s.cfg ∧ t.env = s.env ∧
    (i = .info → t.pkt = { s.pkt with type := .info })

/-- R26: over every step of every agent, the transport mode changes only where the engine executes SET_PROG_MODE. -/
def Obligations.OnlySetProgModeChangesMode : Prop :=
  ∀ s t : State, step s = .next t → t.transportMode ≠ s.transportMode →
    phaseOf s.pkt = some .executing ∧
    ∃ m rest, fetchUnit (takeMove s) = .next (.unit (.setProgMode m) rest)

/-- R34, R95, R103, R104 (no opcode writes the status; D13): over every step, the status changes only to Ok where a
packet begins, and to Parsed or Error where a packet is checked. -/
def Obligations.OnlyFramerWritesStatus : Prop :=
  ∀ s t : State, step s = .next t → t.pkt.status ≠ s.pkt.status →
    (phaseOf s.pkt = some .idle ∧ t.pkt.status = .ok ∧ phaseOf t.pkt = some .awaitLength) ∨
    (phaseOf s.pkt = some .awaitBody ∧ (t.pkt.status = .parsed ∨ t.pkt.status = .error))

/-- R88, R33: no step changes a parameter (log 1), and the history only grows at its end. -/
def Obligations.ParametersStayHistoryGrows : Prop :=
  ∀ s t : State, step s = .next t → t.cfg = s.cfg ∧ s.history <+: t.history

/-- R19, R47, R108: the engine writes neither the head nor the array of cmdIn, and consumes it in order, at its tail. -/
def Obligations.EngineConsumesInOrder : Prop :=
  ∀ s t : State, s.cmdIn.Wf s.cfg.nCmdIn → engineStep s = .next t →
    t.cmdIn.head = s.cmdIn.head ∧ t.cmdIn.data = s.cmdIn.data ∧ inContent t <:+ inContent s

/-! ### Encoding -/

/-- R63 to R81: decoding an encoded well-formed instruction gives it back, with every operand, under every choice of the
parameters, whatever bytes follow. -/
def Obligations.DecodeEncodeRoundTrip : Prop :=
  ∀ (p : Params) (i : Instr) (rest : List Byte), p.Wf → WellFormed p i = true →
    (i.isStreamUnit = true → decode p (encode p i ++ rest) = .unit i rest) ∧
    (i.isStreamUnit = false → ∃ b, encode p i = [b] ∧ decodeMarker p b = some i)

/-- R69, R72: what the decoder reads is well-formed, is an opcode-stream unit, and its encoding is the bytes read. -/
def Obligations.EncodeDecodeRoundTrip : Prop :=
  ∀ (p : Params) (bytes rest : List Byte) (i : Instr), decode p bytes = .unit i rest →
    encode p i ++ rest = bytes ∧ WellFormed p i = true ∧ i.isStreamUnit = true

/-- R90, 95_test_vectors.md V19, V22, V27, P1, V33: words written out from the spec decode to the instructions they
stand for, under the default parameters (log 2). -/
def Obligations.SampleWordsDecode : Prop :=
  decode defaultParams [0x03, 0x01] = .unit (.setProgMode 0x01) [] ∧
  decode defaultParams [0x04, 0x04, 0x01] = .unit (.setPinIoMode 0x04 0x01) [] ∧
  decode defaultParams [0x06, 0x03] = .unit (.setPinRead 0x03) [] ∧
  decode defaultParams [0x08, 0x20, 0xFF, 0x04, 0x3C] = .unit (.xferInstruction 0x3C04FF20) [] ∧
  decode defaultParams [0x07, 4, 3, 0, 0, 0, 0, 0, 0, 0, 5, 1, 0, 0, 0, 0, 0, 0, 0, 2, 1, 0, 0, 0, 0, 0, 0, 0, 1] =
    .unit (.send 4 0x3 5 0x01 2 0x1 1) [] ∧
  decodeMarker defaultParams 0x70 = some .packet ∧ decodeMarker defaultParams 0x69 = some .info
end

