-- ==== Sys2Proof/Laws/Decode.lean ====
section
/-!
SUPPORT. The byte-order functions and the opcode IDs: little-endian assembly undoes its inverse, and an ID names its
opcode.
-/

namespace Sys2Proof.Machine

@[simp] theorem bytesLE_length (n v : Nat) : (bytesLE n v).length = n := by
  induction n generalizing v with
  | zero => rfl
  | succ n ih => simp [bytesLE, ih]

/-- R10: the n-byte little-endian sequence of v assembles to v modulo 256^n. -/
theorem leNat_bytesLE (n v : Nat) : leNat (bytesLE n v) = v % 256 ^ n := by
  induction n generalizing v with
  | zero => simp [bytesLE, leNat, Nat.mod_one]
  | succ n ih =>
    simp only [bytesLE, leNat, BitVec.toNat_ofNat, ih]
    rw [show (256 : Nat) ^ (n + 1) = 256 * 256 ^ n from Nat.pow_succ', Nat.mod_mul]

theorem leNat_lt (bytes : List Byte) : leNat bytes < 256 ^ bytes.length := by
  induction bytes with
  | nil => simp [leNat]
  | cons b rest ih =>
    have := b.isLt
    simp only [leNat, List.length_cons, Nat.pow_succ]
    omega

/-- R10: a sequence of n bytes is the little-endian sequence of the value it assembles to. -/
theorem bytesLE_leNat (bytes : List Byte) : bytesLE bytes.length (leNat bytes) = bytes := by
  induction bytes with
  | nil => rfl
  | cons b rest ih =>
    have hb := b.isLt
    have h1 : (leNat (b :: rest)) / 256 = leNat rest := by simp only [leNat]; omega
    have h2 : BitVec.ofNat 8 (leNat (b :: rest)) = b := by
      apply BitVec.eq_of_toNat_eq
      simp only [leNat, BitVec.toNat_ofNat]
      omega
    simp only [List.length_cons, bytesLE, h1, h2, ih]

/-- R10: bytesLE_n(v)[i] = (v >> 8i) & 0xFF. -/
theorem bytesLE_getElem (n v i : Nat) (h : i < (bytesLE n v).length) :
    (bytesLE n v)[i] = BitVec.ofNat 8 (v >>> (8 * i)) := by
  induction n generalizing v i with
  | zero => simp [bytesLE] at h
  | succ n ih =>
    cases i with
    | zero => simp [bytesLE]
    | succ i =>
      simp only [bytesLE, List.getElem_cons_succ]
      rw [ih]
      congr 1
      rw [Nat.shiftRight_eq_div_pow, Nat.shiftRight_eq_div_pow, Nat.div_div_eq_div_mul,
        show 8 * (i + 1) = 8 + 8 * i by omega, Nat.pow_add]

/-- A field of a byte sequence, found at its offset. -/
theorem bytesAt_chunk {l pre x post : List Byte} {o n : Nat} (hl : l = pre ++ (x ++ post)) (ho : pre.length = o)
    (hn : x.length = n) : bytesAt l o n = x := by
  subst hl ho hn
  simp [bytesAt]

/-- R10: a value that fits n bytes is read back from its n-byte little-endian sequence. -/
theorem ofNat_leNat_bytesLE {w n : Nat} (x : BitVec w) (hx : x.toNat < 256 ^ n) :
    BitVec.ofNat w (leNat (bytesLE n x.toNat)) = x := by
  rw [leNat_bytesLE, Nat.mod_eq_of_lt hx, BitVec.ofNat_toNat, BitVec.setWidth_eq]

/-- R10: n bytes read into a word that holds them are its n-byte little-endian sequence. -/
theorem bytesLE_ofNat_leNat {w n : Nat} {x : List Byte} (hn : x.length = n) (hw : 256 ^ n ≤ 2 ^ w) :
    bytesLE n (BitVec.ofNat w (leNat x)).toNat = x := by
  have h := leNat_lt x
  rw [hn] at h
  rw [BitVec.toNat_ofNat, Nat.mod_eq_of_lt (by omega), ← hn]
  exact bytesLE_leNat x

/-- Seven chunks one after the other, each found at its offset. -/
theorem bytesAt_seven {a b c d e f g : List Byte} {n v m o2 o3 o4 o5 o6 : Nat} (ha : a.length = n) (hb : b.length = v)
    (hc : c.length = n) (hd : d.length = v) (he : e.length = n) (hf : f.length = v) (hg : g.length = m)
    (h2 : n + v = o2) (h3 : o2 + n = o3) (h4 : o3 + v = o4) (h5 : o4 + n = o5) (h6 : o5 + v = o6) :
    bytesAt (a ++ b ++ c ++ d ++ e ++ f ++ g) 0 n = a ∧ bytesAt (a ++ b ++ c ++ d ++ e ++ f ++ g) n v = b ∧
      bytesAt (a ++ b ++ c ++ d ++ e ++ f ++ g) o2 n = c ∧ bytesAt (a ++ b ++ c ++ d ++ e ++ f ++ g) o3 v = d ∧
      bytesAt (a ++ b ++ c ++ d ++ e ++ f ++ g) o4 n = e ∧ bytesAt (a ++ b ++ c ++ d ++ e ++ f ++ g) o5 v = f ∧
      bytesAt (a ++ b ++ c ++ d ++ e ++ f ++ g) o6 m = g :=
  ⟨bytesAt_chunk (pre := []) (post := b ++ c ++ d ++ e ++ f ++ g) (by simp) rfl ha,
    bytesAt_chunk (pre := a) (post := c ++ d ++ e ++ f ++ g) (by simp) ha hb,
    bytesAt_chunk (pre := a ++ b) (post := d ++ e ++ f ++ g) (by simp) (by simp; omega) hc,
    bytesAt_chunk (pre := a ++ b ++ c) (post := e ++ f ++ g) (by simp) (by simp; omega) hd,
    bytesAt_chunk (pre := a ++ b ++ c ++ d) (post := f ++ g) (by simp) (by simp; omega) he,
    bytesAt_chunk (pre := a ++ b ++ c ++ d ++ e) (post := g) (by simp) (by simp; omega) hf,
    bytesAt_chunk (pre := a ++ b ++ c ++ d ++ e ++ f) (post := []) (by simp) (by simp; omega) hg⟩

/-- A sequence is its consecutive fields. -/
theorem append_bytesAt {l : List Byte} {o n p : Nat} (h : o + n = p) : l.take o ++ bytesAt l o n = l.take p := by
  subst h
  rw [bytesAt, List.take_add]

end Sys2Proof.Machine

namespace Sys2Proof

theorem mem_opcodeList (op : Opcode) : op ∈ opcodeList := by cases op <;> decide

theorem idList_eq_map (p : Params) : p.idList = opcodeList.map (opcodeId p) := rfl

/-- R81: a byte names no opcode exactly where it is in no OPCODE_ID. -/
theorem opcodeOfByte_eq_none (p : Params) (b : Byte) : opcodeOfByte p b = none ↔ b ∉ p.idList := by
  simp [opcodeOfByte, idList_eq_map, List.find?_eq_none]

/-- R72: the opcode a byte names has that byte as its ID. -/
theorem opcodeId_of_opcodeOfByte {p : Params} {b : Byte} {op : Opcode} (h : opcodeOfByte p b = some op) :
    opcodeId p op = b := by
  simpa using List.find?_some h

/-- R71, R72: under an injective OPCODE_ID, an ID names its opcode. -/
theorem opcodeOfByte_opcodeId {p : Params} (h : p.idList.Nodup) (op : Opcode) :
    opcodeOfByte p (opcodeId p op) = some op := by
  cases hf : opcodeOfByte p (opcodeId p op) with
  | none =>
    rw [opcodeOfByte_eq_none, idList_eq_map] at hf
    exact absurd (List.mem_map_of_mem (mem_opcodeList op)) hf
  | some op' =>
    have he := opcodeId_of_opcodeOfByte hf
    rw [idList_eq_map] at h
    rw [List.inj_on_of_nodup_map h (mem_opcodeList op') (mem_opcodeList op) he]

@[simp] theorem encodeSend_length (p : Params) (pn : U32) (pv : U64) (dn : U32) (dv : U64) (en : U32) (ev : U64)
    (rd : U32) : (encodeSend p pn pv dn dv en ev rd).length = 28 := by
  unfold encodeSend
  split <;> simp

/-- R69, R72: decoding where the first byte names an opcode. -/
theorem decode_opcode {p : Params} {b : Byte} {op : Opcode} (h : opcodeOfByte p b = some op) (rest : List Byte) :
    decode p (b :: rest) =
      if rest.length < operandBytes op then .truncated op
      else .unit (decodeOperands p op (rest.take (operandBytes op))) (rest.drop (operandBytes op)) := by
  simp [decode, h]

/-- R81: decoding where the first byte names no opcode. -/
theorem decode_unrecognised {p : Params} {b : Byte} (h : opcodeOfByte p b = none) (rest : List Byte) :
    decode p (b :: rest) = .unit (.unrecognisedByte b) rest := by
  simp [decode, h]

/-- R70: an opcode's instruction occupies its ID and its operand bytes. -/
theorem instrLength_decodeOperands (p : Params) (op : Opcode) (a : List Byte) :
    instrLength (decodeOperands p op a) = 1 + operandBytes op := by
  cases op <;> try rfl
  simp only [decodeOperands, decodeSend]
  split <;> rfl

open Machine

/-- R78: under either layout, SEND's operand bytes decode to the operands they encode. -/
theorem decodeSend_encodeSend {p : Params} {pn : U32} {pv : U64} {dn : U32} {dv : U64} {en : U32} {ev : U64} {rd : U32}
    (h : WellFormed p (.send pn pv dn dv en ev rd) = true) :
    decodeSend p (encodeSend p pn pv dn dv en ev rd) = .send pn pv dn dv en ev rd := by
  simp only [WellFormed, Bool.and_eq_true, countFits, valueFits] at h
  have lt64 : ∀ x : U64, x.toNat < 256 ^ 8 := fun x => x.isLt
  have lt32 : ∀ x : U32, x.toNat < 256 ^ 4 := fun x => x.isLt
  unfold decodeSend encodeSend
  cases hl : p.sendLayout <;> simp only [hl, decide_eq_true_eq] at h ⊢
  · obtain ⟨⟨⟨⟨a, b⟩, c⟩, d⟩, _⟩ := h
    obtain ⟨h1, h2, h3, h4, h5, h6, h7⟩ := bytesAt_seven (bytesLE_length 1 pn.toNat) (bytesLE_length 8 pv.toNat)
      (bytesLE_length 1 dn.toNat) (bytesLE_length 8 dv.toNat) (bytesLE_length 1 en.toNat) (bytesLE_length 8 ev.toNat)
      (bytesLE_length 1 rd.toNat) (o2 := 9) (o3 := 10) (o4 := 18) (o5 := 19) (o6 := 27) rfl rfl rfl rfl rfl
    rw [h1, h2, h3, h4, h5, h6, h7, ofNat_leNat_bytesLE pn a, ofNat_leNat_bytesLE dn b, ofNat_leNat_bytesLE en c,
      ofNat_leNat_bytesLE rd d, ofNat_leNat_bytesLE pv (lt64 _), ofNat_leNat_bytesLE dv (lt64 _),
      ofNat_leNat_bytesLE ev (lt64 _)]
  · obtain ⟨_, ⟨a, b⟩, c⟩ := h
    obtain ⟨h1, h2, h3, h4, h5, h6, h7⟩ := bytesAt_seven (bytesLE_length 4 pn.toNat) (bytesLE_length 4 pv.toNat)
      (bytesLE_length 4 dn.toNat) (bytesLE_length 4 dv.toNat) (bytesLE_length 4 en.toNat) (bytesLE_length 4 ev.toNat)
      (bytesLE_length 4 rd.toNat) (o2 := 8) (o3 := 12) (o4 := 16) (o5 := 20) (o6 := 24) rfl rfl rfl rfl rfl
    rw [h1, h2, h3, h4, h5, h6, h7, ofNat_leNat_bytesLE pn (lt32 _), ofNat_leNat_bytesLE dn (lt32 _),
      ofNat_leNat_bytesLE en (lt32 _), ofNat_leNat_bytesLE rd (lt32 _), ofNat_leNat_bytesLE pv a,
      ofNat_leNat_bytesLE dv b, ofNat_leNat_bytesLE ev c]

/-- R78: under either layout, SEND's operand bytes are the encoding of the operands they decode to, which fit their
fields. -/
theorem encodeSend_decodeSend (p : Params) {a : List Byte} (ha : a.length = 28) :
    ∃ pn pv dn dv en ev rd, decodeSend p a = .send pn pv dn dv en ev rd ∧
      encodeSend p pn pv dn dv en ev rd = a ∧ WellFormed p (.send pn pv dn dv en ev rd) = true := by
  have len : ∀ o n, o + n ≤ 28 → (bytesAt a o n).length = n := fun o n h => by
    rw [bytesAt, List.length_take, List.length_drop, ha]; omega
  have back : ∀ {w n : Nat} (o : Nat), o + n ≤ 28 → 256 ^ n ≤ 2 ^ w →
      bytesLE n (BitVec.ofNat w (leNat (bytesAt a o n))).toNat = bytesAt a o n := fun o h hw =>
    bytesLE_ofNat_leNat (len _ _ h) hw
  have fits : ∀ {w : Nat} (o n : Nat), o + n ≤ 28 → 256 ^ n ≤ 2 ^ w →
      (BitVec.ofNat w (leNat (bytesAt a o n))).toNat < 256 ^ n := fun o n h hw => by
    have := leNat_lt (bytesAt a o n)
    rw [len _ _ h] at this
    rw [BitVec.toNat_ofNat, Nat.mod_eq_of_lt (by omega)]
    exact this
  have whole : ∀ {o2 o3 o4 o5 o6 o7 : Nat} (n1 n2 n3 n4 n5 n6 n7 : Nat), n1 + n2 = o2 → o2 + n3 = o3 → o3 + n4 = o4 →
      o4 + n5 = o5 → o5 + n6 = o6 → o6 + n7 = o7 → o7 = 28 →
      bytesAt a 0 n1 ++ bytesAt a n1 n2 ++ bytesAt a o2 n3 ++ bytesAt a o3 n4 ++ bytesAt a o4 n5 ++ bytesAt a o5 n6 ++
        bytesAt a o6 n7 = a := by
    intro o2 o3 o4 o5 o6 o7 n1 n2 n3 n4 n5 n6 n7 h2 h3 h4 h5 h6 h7 h8
    rw [show bytesAt a 0 n1 = a.take n1 by simp [bytesAt], append_bytesAt h2, append_bytesAt h3, append_bytesAt h4,
      append_bytesAt h5, append_bytesAt h6, append_bytesAt h7, h8, ← ha, List.take_length]
  unfold decodeSend encodeSend WellFormed countFits valueFits
  cases p.sendLayout <;> simp only
  · refine ⟨_, _, _, _, _, _, _, rfl, ?_, ?_⟩
    · rw [back 0 (by omega) (by decide), back 1 (by omega) (by decide), back 9 (by omega) (by decide),
        back 10 (by omega) (by decide), back 18 (by omega) (by decide), back 19 (by omega) (by decide),
        back 27 (by omega) (by decide)]
      exact whole 1 8 1 8 1 8 1 rfl rfl rfl rfl rfl rfl rfl
    · simp only [Bool.and_eq_true, decide_eq_true_eq, Bool.and_self]
      exact ⟨⟨⟨⟨fits 0 1 (by omega) (by decide), fits 9 1 (by omega) (by decide)⟩, fits 18 1 (by omega) (by decide)⟩,
        fits 27 1 (by omega) (by decide)⟩, trivial⟩
  · refine ⟨_, _, _, _, _, _, _, rfl, ?_, ?_⟩
    · rw [back 0 (by omega) (by decide), back 4 (by omega) (by decide), back 8 (by omega) (by decide),
        back 12 (by omega) (by decide), back 16 (by omega) (by decide), back 20 (by omega) (by decide),
        back 24 (by omega) (by decide)]
      exact whole 4 4 4 4 4 4 4 rfl rfl rfl rfl rfl rfl rfl
    · simp only [Bool.and_eq_true, decide_eq_true_eq, Bool.and_self]
      exact ⟨trivial, ⟨fits 4 4 (by omega) (by decide), fits 12 4 (by omega) (by decide)⟩,
        fits 20 4 (by omega) (by decide)⟩

end Sys2Proof
end

