-- ==== Sys2Proof/Laws/Memory.lean ====
section
/-!
SUPPORT. The bytes of an array: a read after a write, what a write leaves alone, and that every write keeps the
canonical form.
-/

namespace Sys2Proof.Machine

theorem Memory.read_eq_unwritten_of_lt {m : Memory} {lo a : Nat} (h : m.wfFrom lo = true) (ha : a < lo) :
    m.read a = unwrittenByte := by
  induction m generalizing lo with
  | nil => rfl
  | cons c rest ih =>
    obtain ⟨k, b⟩ := c
    simp only [Memory.wfFrom, Bool.and_eq_true, decide_eq_true_eq] at h
    have hk : k ≠ a := by omega
    simp only [Memory.read, if_neg hk]
    exact ih h.2 (by omega)

theorem Memory.wfFrom_mono {m : Memory} {lo lo' : Nat} (h : m.wfFrom lo = true) (hl : lo' ≤ lo) :
    m.wfFrom lo' = true := by
  cases m with
  | nil => rfl
  | cons c rest =>
    obtain ⟨k, b⟩ := c
    simp only [Memory.wfFrom, Bool.and_eq_true, decide_eq_true_eq] at h ⊢
    exact ⟨⟨by omega, h.1.2⟩, h.2⟩

theorem Memory.wfFrom_write {m : Memory} {lo a : Nat} {b : Byte} (h : m.wfFrom lo = true) (ha : lo ≤ a) :
    (m.write a b).wfFrom lo = true := by
  induction m generalizing lo with
  | nil =>
    by_cases hb : b = unwrittenByte <;> simp [Memory.write, Memory.wfFrom, hb, ha]
  | cons c rest ih =>
    obtain ⟨k, d⟩ := c
    have h' := h
    simp only [Memory.wfFrom, Bool.and_eq_true, decide_eq_true_eq] at h
    obtain ⟨⟨hk, hd⟩, hr⟩ := h
    simp only [Memory.write]
    split_ifs with h1 h2 h3 h4
    · exact h'
    · simp only [Memory.wfFrom, Bool.and_eq_true, decide_eq_true_eq]
      exact ⟨⟨ha, h2⟩, ⟨⟨by omega, hd⟩, hr⟩⟩
    · exact Memory.wfFrom_mono hr (by omega)
    · simp only [Memory.wfFrom, Bool.and_eq_true, decide_eq_true_eq]
      subst h3
      exact ⟨⟨ha, h4⟩, hr⟩
    · simp only [Memory.wfFrom, Bool.and_eq_true, decide_eq_true_eq]
      exact ⟨⟨hk, hd⟩, ih hr (by omega)⟩

/-- Every write keeps the canonical form. -/
theorem Memory.wf_write {m : Memory} (a : Nat) (b : Byte) (h : m.wf = true) : (m.write a b).wf = true :=
  Memory.wfFrom_write h (Nat.zero_le a)

theorem Memory.read_write_same_from {m : Memory} {lo a : Nat} {b : Byte} (h : m.wfFrom lo = true) :
    (m.write a b).read a = b := by
  induction m generalizing lo with
  | nil =>
    by_cases hb : b = unwrittenByte <;> simp [Memory.write, Memory.read, hb]
  | cons c rest ih =>
    obtain ⟨k, d⟩ := c
    simp only [Memory.wfFrom, Bool.and_eq_true, decide_eq_true_eq] at h
    simp only [Memory.write]
    split_ifs with h1 h2 h3 h4
    · have hk : k ≠ a := by omega
      simp only [Memory.read, if_neg hk, h2]
      exact Memory.read_eq_unwritten_of_lt h.2 (by omega)
    · simp [Memory.read]
    · rw [h4]
      exact Memory.read_eq_unwritten_of_lt h.2 (by omega)
    · simp [Memory.read]
    · have hk : k ≠ a := fun e => h3 e.symm
      simp only [Memory.read, if_neg hk]
      exact ih h.2

/-- A read after a write to the same place gives the byte written. -/
theorem Memory.read_write_same {m : Memory} (a : Nat) (b : Byte) (h : m.wf = true) : (m.write a b).read a = b :=
  Memory.read_write_same_from h

/-- A write leaves every other place alone. -/
theorem Memory.read_write_other (m : Memory) {a a' : Nat} (b : Byte) (h : a' ≠ a) :
    (m.write a b).read a' = m.read a' := by
  induction m with
  | nil =>
    by_cases hb : b = unwrittenByte <;> simp [Memory.write, Memory.read, hb, Ne.symm h]
  | cons c rest ih =>
    obtain ⟨k, d⟩ := c
    simp only [Memory.write]
    split_ifs with h1 h2 h3 h4
    · rfl
    · simp [Memory.read, Ne.symm h]
    · subst h3
      simp [Memory.read, Ne.symm h]
    · subst h3
      simp [Memory.read, Ne.symm h]
    · simp only [Memory.read, ih]

/-- A cell of a written array is a cell of the old one or the cell written. -/
theorem Memory.mem_write {m : Memory} {a : Nat} {b : Byte} {c : Host.Cell} (h : c ∈ m.write a b) :
    c = (a, b) ∨ c ∈ m := by
  induction m with
  | nil =>
    by_cases hb : b = unwrittenByte <;> simp_all [Memory.write]
  | cons d rest ih =>
    obtain ⟨k, x⟩ := d
    simp only [Memory.write] at h
    split_ifs at h with h1 h2 h3 h4
    · exact .inr h
    · simpa using h
    · exact .inr (List.mem_cons_of_mem _ h)
    · rcases List.mem_cons.1 h with h | h
      · exact .inl h
      · exact .inr (List.mem_cons_of_mem _ h)
    · rcases List.mem_cons.1 h with h | h
      · exact .inr (h ▸ List.mem_cons_self ..)
      · rcases ih h with h | h
        · exact .inl h
        · exact .inr (List.mem_cons_of_mem _ h)

theorem Memory.eq_of_read_eq_from {m m' : Memory} {lo : Nat} (h : m.wfFrom lo = true) (h' : m'.wfFrom lo = true)
    (hr : ∀ a, lo ≤ a → m.read a = m'.read a) : m = m' := by
  induction m generalizing m' lo with
  | nil =>
    cases m' with
    | nil => rfl
    | cons c rest =>
      obtain ⟨k, b⟩ := c
      simp only [Memory.wfFrom, Bool.and_eq_true, decide_eq_true_eq] at h'
      have := hr k h'.1.1
      simp only [Memory.read, if_true] at this
      exact absurd this.symm h'.1.2
  | cons c rest ih =>
    obtain ⟨k, b⟩ := c
    have h0 := h
    simp only [Memory.wfFrom, Bool.and_eq_true, decide_eq_true_eq] at h
    cases m' with
    | nil =>
      have := hr k h.1.1
      simp only [Memory.read, if_true] at this
      exact absurd this h.1.2
    | cons c' rest' =>
      obtain ⟨k', b'⟩ := c'
      have h0' := h'
      simp only [Memory.wfFrom, Bool.and_eq_true, decide_eq_true_eq] at h'
      have hkk : k = k' := by
        rcases Nat.lt_trichotomy k k' with hl | hl | hl
        · have e := hr k h.1.1
          have : Memory.read ((k', b') :: rest') k = unwrittenByte :=
            Memory.read_eq_unwritten_of_lt (lo := k') (by
              simp only [Memory.wfFrom, Bool.and_eq_true, decide_eq_true_eq]
              exact ⟨⟨le_refl _, h'.1.2⟩, h'.2⟩) hl
          rw [this] at e
          simp only [Memory.read, if_true] at e
          exact absurd e h.1.2
        · exact hl
        · have e := hr k' h'.1.1
          have : Memory.read ((k, b) :: rest) k' = unwrittenByte :=
            Memory.read_eq_unwritten_of_lt (lo := k) (by
              simp only [Memory.wfFrom, Bool.and_eq_true, decide_eq_true_eq]
              exact ⟨⟨le_refl _, h.1.2⟩, h.2⟩) hl
          rw [this] at e
          simp only [Memory.read, if_true] at e
          exact absurd e.symm h'.1.2
      subst hkk
      have hb : b = b' := by simpa [Memory.read] using hr k h.1.1
      subst hb
      have : rest = rest' := ih h.2 h'.2 (fun a ha => by
        have e := hr a (by omega)
        have hk : k ≠ a := by omega
        simpa only [Memory.read, if_neg hk] using e)
      rw [this]

/-- Arrays in canonical form that read alike everywhere are equal data. -/
theorem Memory.eq_of_read_eq {m m' : Memory} (h : m.wf = true) (h' : m'.wf = true)
    (hr : ∀ a, m.read a = m'.read a) : m = m' :=
  Memory.eq_of_read_eq_from h h' (fun a _ => hr a)

end Sys2Proof.Machine
end

