-- ==== Sys2Proof/Laws/Ring.lean ====
section
/-!
SUPPORT. The ring operations of 20_memory.md on a ring whose size is a power of two: what Push, Pop and Peek do to the
ring's content, and that they keep the invariants of R18.
-/

namespace Sys2Proof.Machine

/-- R39: because N is a power of two, the mask is the remainder. -/
theorem mask_two_pow (k x : Nat) : mask (2 ^ k) x = x % 2 ^ k := Nat.and_two_pow_sub_one_eq_mod x k

theorem mask_lt (k x : Nat) : mask (2 ^ k) x < 2 ^ k := by
  rw [mask_two_pow]; exact Nat.mod_lt _ (Nat.two_pow_pos k)

@[simp] theorem mask_mask_add (k x y : Nat) : mask (2 ^ k) (mask (2 ^ k) x + y) = mask (2 ^ k) (x + y) := by
  simp [mask_two_pow, Nat.mod_add_mod]

theorem mask_of_lt {k x : Nat} (h : x < 2 ^ k) : mask (2 ^ k) x = x := by
  rw [mask_two_pow, Nat.mod_eq_of_lt h]

/-- Two positions of one ring less than N apart are the same only at the same distance. -/
theorem mask_add_inj {k i x y : Nat} (hx : x < 2 ^ k) (hy : y < 2 ^ k)
    (h : mask (2 ^ k) (i + x) = mask (2 ^ k) (i + y)) : x = y := by
  simp only [mask_two_pow] at h
  have := (Nat.ModEq.add_left_cancel' i h : x ≡ y [MOD 2 ^ k])
  rwa [Nat.ModEq, Nat.mod_eq_of_lt hx, Nat.mod_eq_of_lt hy] at this

/-- R18: a ring of size N holds at most N−1 bytes. -/
theorem Ring.occupied_le (k : Nat) (b : Ring) : b.occupied (2 ^ k) ≤ 2 ^ k - 1 := by
  have := mask_lt k (b.head + 2 ^ k - b.tail)
  unfold Ring.occupied
  omega

/-- R18: Occupied in terms of the indices. -/
theorem Ring.occupied_eq {k : Nat} {b : Ring} (hh : b.head < 2 ^ k) (ht : b.tail < 2 ^ k) :
    b.occupied (2 ^ k) = if b.tail ≤ b.head then b.head - b.tail else b.head + 2 ^ k - b.tail := by
  unfold Ring.occupied
  rw [mask_two_pow]
  split_ifs with h
  · rw [show b.head + 2 ^ k - b.tail = (b.head - b.tail) + 2 ^ k by omega, Nat.add_mod_right,
      Nat.mod_eq_of_lt (by omega)]
  · exact Nat.mod_eq_of_lt (by omega)

/-- The head stands Occupied bytes after the tail. -/
theorem Ring.mask_tail_add_occupied {k : Nat} {b : Ring} (hh : b.head < 2 ^ k) (ht : b.tail < 2 ^ k) :
    mask (2 ^ k) (b.tail + b.occupied (2 ^ k)) = b.head := by
  rw [Ring.occupied_eq hh ht, mask_two_pow]
  split_ifs with h
  · rw [show b.tail + (b.head - b.tail) = b.head by omega, Nat.mod_eq_of_lt hh]
  · rw [show b.tail + (b.head + 2 ^ k - b.tail) = b.head + 2 ^ k by omega, Nat.add_mod_right, Nat.mod_eq_of_lt hh]

/-- Occupied of a ring whose head stands n < N bytes after its tail. -/
theorem Ring.occupied_of_head {k n : Nat} {b : Ring} (ht : b.tail < 2 ^ k) (hn : n < 2 ^ k)
    (hh : b.head = mask (2 ^ k) (b.tail + n)) : b.occupied (2 ^ k) = n := by
  have hh' : b.head < 2 ^ k := hh ▸ mask_lt _ _
  have h1 := Ring.mask_tail_add_occupied hh' ht
  have h2 : b.occupied (2 ^ k) < 2 ^ k := mask_lt _ _
  exact mask_add_inj h2 hn (h1.trans hh)

@[simp] theorem Ring.memRead_length (N : Nat) (b : Ring) (i n : Nat) : (b.memRead N i n).length = n := by
  simp [Ring.memRead]

theorem Ring.memRead_getElem (N : Nat) (b : Ring) (i n j : Nat) (h : j < (b.memRead N i n).length) :
    (b.memRead N i n)[j] = b.data.read (mask N (i + j)) := by
  simp [Ring.memRead]

/-- R41: reading n + m bytes reads n bytes and then the m after them. -/
theorem Ring.memRead_add (N : Nat) (b : Ring) (i n m : Nat) :
    b.memRead N i (n + m) = b.memRead N i n ++ b.memRead N (i + n) m := by
  simp only [Ring.memRead, List.range_add, List.map_append, List.map_map]
  congr 1
  apply List.map_congr_left
  intro j _
  simp [Nat.add_assoc]

theorem Ring.memRead_mask (k : Nat) (b : Ring) (i n : Nat) :
    b.memRead (2 ^ k) (mask (2 ^ k) i) n = b.memRead (2 ^ k) i n := by
  simp [Ring.memRead]

@[simp] theorem Ring.content_length (N : Nat) (b : Ring) : (b.content N).length = b.occupied N := by
  simp [Ring.content]

theorem Ring.content_getElem (N : Nat) (b : Ring) (j : Nat) (h : j < (b.content N).length) :
    (b.content N)[j] = b.data.read (mask N (b.tail + j)) := by
  simp [Ring.content, Ring.memRead]

/-- R44: what Peek reads is a part of the content. -/
theorem Ring.memRead_eq_content {k : Nat} {b : Ring} {off n : Nat} (h : off + n ≤ b.occupied (2 ^ k)) :
    b.memRead (2 ^ k) (b.tail + off) n = ((b.content (2 ^ k)).drop off).take n := by
  unfold Ring.content
  obtain ⟨r, hr⟩ := Nat.exists_eq_add_of_le h
  rw [hr, Nat.add_assoc, Ring.memRead_add, List.drop_append_of_le_length (by simp),
    List.drop_of_length_le (by simp), List.nil_append, Ring.memRead_add, List.take_append_of_le_length (by simp),
    List.take_of_length_le (by simp)]

/-- R44: Peek, in terms of the content. -/
theorem Ring.peek_eq {k : Nat} (name : RingName) {b : Ring} {off n : Nat} (h : off + n ≤ b.occupied (2 ^ k)) :
    b.peek name (2 ^ k) off n = .next (((b.content (2 ^ k)).drop off).take n) := by
  unfold Ring.peek
  rw [if_neg (by omega), Ring.memRead_mask, Ring.memRead_eq_content h]

/-- R44: a Peek beyond Occupied is RingUnderflow. -/
theorem Ring.peek_underflow (name : RingName) {N : Nat} {b : Ring} {off n : Nat} (h : b.occupied N < off + n) :
    b.peek name N off n = .fault (.ringUnderflow name (off + n)) := by
  unfold Ring.peek
  rw [if_pos h]

/-- The ring after a Pop of n bytes. -/
abbrev Ring.popped (N : Nat) (b : Ring) (n : Nat) : Ring := { b with tail := mask N (b.tail + n) }

/-- R43: Pop, in terms of the content. -/
theorem Ring.pop_eq {k : Nat} (name : RingName) {b : Ring} {n : Nat} (h : n ≤ b.occupied (2 ^ k)) :
    b.pop name (2 ^ k) n = .next ((b.content (2 ^ k)).take n, b.popped (2 ^ k) n) := by
  unfold Ring.pop
  rw [if_neg (by omega)]
  have := Ring.memRead_eq_content (k := k) (b := b) (off := 0) (n := n) (by omega)
  simp only [Nat.add_zero, List.drop_zero] at this
  rw [this]

/-- R43: a Pop beyond Occupied is RingUnderflow. -/
theorem Ring.pop_underflow (name : RingName) {N : Nat} {b : Ring} {n : Nat} (h : b.occupied N < n) :
    b.pop name N n = .fault (.ringUnderflow name n) := by
  unfold Ring.pop
  rw [if_pos h]

theorem Ring.popped_wf {k : Nat} {b : Ring} (hb : b.Wf (2 ^ k)) (n : Nat) : (b.popped (2 ^ k) n).Wf (2 ^ k) :=
  ⟨hb.1, mask_lt _ _, hb.2.2.1, hb.2.2.2⟩

theorem Ring.popped_occupied {k : Nat} {b : Ring} (hb : b.Wf (2 ^ k)) {n : Nat} (h : n ≤ b.occupied (2 ^ k)) :
    (b.popped (2 ^ k) n).occupied (2 ^ k) = b.occupied (2 ^ k) - n := by
  apply Ring.occupied_of_head (mask_lt _ _)
  · have : b.occupied (2 ^ k) < 2 ^ k := mask_lt _ _
    omega
  · show b.head = _
    simp only [mask_mask_add]
    rw [show b.tail + n + (b.occupied (2 ^ k) - n) = b.tail + b.occupied (2 ^ k) by omega]
    exact (Ring.mask_tail_add_occupied hb.1 hb.2.1).symm

/-- R43: what a Pop leaves in the ring. -/
theorem Ring.popped_content {k : Nat} {b : Ring} (hb : b.Wf (2 ^ k)) {n : Nat} (h : n ≤ b.occupied (2 ^ k)) :
    (b.popped (2 ^ k) n).content (2 ^ k) = (b.content (2 ^ k)).drop n := by
  have hr : (b.popped (2 ^ k) n).content (2 ^ k) =
      b.memRead (2 ^ k) (b.tail + n) (b.occupied (2 ^ k) - n) := by
    unfold Ring.content
    rw [Ring.popped_occupied hb h]
    exact Ring.memRead_mask k b (b.tail + n) _
  rw [hr, Ring.memRead_eq_content (by omega), List.take_of_length_le (by simp)]

/-- Writing bytes keeps the array canonical. -/
theorem memWrite_wf (N : Nat) {data : Memory} (i : Nat) (bytes : List Byte) (h : data.wf = true) :
    (memWrite N data i bytes).wf = true := by
  induction bytes generalizing data i with
  | nil => exact h
  | cons b rest ih => exact ih (i + 1) (Memory.wf_write _ _ h)

/-- Writing bytes keeps the array inside the index space. -/
theorem memWrite_bound (k : Nat) {data : Memory} (i : Nat) (bytes : List Byte) (h : ∀ c ∈ data, c.1 < 2 ^ k) :
    ∀ c ∈ memWrite (2 ^ k) data i bytes, c.1 < 2 ^ k := by
  induction bytes generalizing data i with
  | nil => exact h
  | cons b rest ih =>
    refine ih (i + 1) (fun c hc => ?_)
    rcases Memory.mem_write hc with rfl | hc
    · exact mask_lt _ _
    · exact h c hc

/-- A place that no byte is written to reads as before. -/
theorem memWrite_read_other {N : Nat} {data : Memory} {i a : Nat} {bytes : List Byte}
    (h : ∀ j < bytes.length, a ≠ mask N (i + j)) : (memWrite N data i bytes).read a = data.read a := by
  induction bytes generalizing data i with
  | nil => rfl
  | cons b rest ih =>
    have h0 : a ≠ mask N i := by simpa using h 0 (by simp)
    rw [memWrite, ih (i := i + 1), Memory.read_write_other _ _ h0]
    intro j hj
    have := h (j + 1) (by simpa using hj)
    rwa [show i + 1 + j = i + (j + 1) by omega]

/-- The j-th byte written is read at the j-th place. -/
theorem memWrite_read_same {k : Nat} {data : Memory} {i : Nat} {bytes : List Byte} (hw : data.wf = true)
    (hl : bytes.length ≤ 2 ^ k) {j : Nat} (hj : j < bytes.length) :
    (memWrite (2 ^ k) data i bytes).read (mask (2 ^ k) (i + j)) = bytes[j] := by
  induction bytes generalizing data i j with
  | nil => simp at hj
  | cons b rest ih =>
    simp only [List.length_cons] at hl
    cases j with
    | zero =>
      rw [memWrite, memWrite_read_other, Nat.add_zero, Memory.read_write_same _ _ hw]
      · rfl
      · intro j' hj' e
        rw [show i + 1 + j' = i + (j' + 1) by omega] at e
        exact absurd (mask_add_inj (by omega) (by omega) e) (by omega)
    | succ j =>
      have hj' : j < rest.length := by simpa using hj
      rw [memWrite, show i + (j + 1) = i + 1 + j by omega,
        ih (Memory.wf_write _ _ hw) (by omega) hj', List.getElem_cons_succ]

/-- The ring after a Push of `bytes` that fits. -/
abbrev Ring.pushed (N : Nat) (b : Ring) (bytes : List Byte) : Ring :=
  { data := memWrite N b.data b.head bytes, head := mask N (b.head + bytes.length), tail := b.tail }

/-- R42: a Push that fits. -/
theorem Ring.push_fits {N : Nat} {b : Ring} {bytes : List Byte} (h : bytes.length ≤ b.spaceLeft N) :
    b.push N bytes = some (b.pushed N bytes) := by
  unfold Ring.push
  rw [if_neg (by omega)]

/-- R42: a Push that does not fit. -/
theorem Ring.push_overflows {N : Nat} {b : Ring} {bytes : List Byte} (h : b.spaceLeft N < bytes.length) :
    b.push N bytes = none := by
  unfold Ring.push
  rw [if_pos h]

theorem Ring.pushed_wf {k : Nat} {b : Ring} (hb : b.Wf (2 ^ k)) (bytes : List Byte) :
    (b.pushed (2 ^ k) bytes).Wf (2 ^ k) :=
  ⟨mask_lt _ _, hb.2.1, memWrite_wf _ _ _ hb.2.2.1, memWrite_bound _ _ _ hb.2.2.2⟩

theorem Ring.pushed_occupied {k : Nat} {b : Ring} (hb : b.Wf (2 ^ k)) {bytes : List Byte}
    (h : bytes.length ≤ b.spaceLeft (2 ^ k)) :
    (b.pushed (2 ^ k) bytes).occupied (2 ^ k) = b.occupied (2 ^ k) + bytes.length := by
  have h1 := Ring.occupied_le k b
  have h2 : 0 < 2 ^ k := Nat.two_pow_pos k
  unfold Ring.spaceLeft at h
  apply Ring.occupied_of_head (b := b.pushed (2 ^ k) bytes) hb.2.1 (by omega)
  show mask (2 ^ k) (b.head + bytes.length) = _
  rw [← Ring.mask_tail_add_occupied hb.1 hb.2.1]
  simp [Nat.add_assoc]

/-- R42, R47: a Push that fits appends its bytes to the content. -/
theorem Ring.pushed_content {k : Nat} {b : Ring} (hb : b.Wf (2 ^ k)) {bytes : List Byte}
    (h : bytes.length ≤ b.spaceLeft (2 ^ k)) :
    (b.pushed (2 ^ k) bytes).content (2 ^ k) = b.content (2 ^ k) ++ bytes := by
  have hocc := Ring.pushed_occupied hb h
  have hle := Ring.occupied_le k b
  have hpos : 0 < 2 ^ k := Nat.two_pow_pos k
  have hsp : bytes.length ≤ (2 ^ k - 1) - b.occupied (2 ^ k) := h
  have hhead := Ring.mask_tail_add_occupied hb.1 hb.2.1
  apply List.ext_getElem
  · simp [hocc]
  · intro j hj1 hj2
    simp only [Ring.content_length, hocc] at hj1
    rw [Ring.content_getElem, List.getElem_append]
    split_ifs with hlt
    · rw [Ring.content_getElem]
      apply memWrite_read_other
      intro j' hj' e
      simp only [Ring.content_length] at hlt
      rw [← hhead, mask_mask_add, Nat.add_assoc] at e
      exact absurd (mask_add_inj (by omega) (by omega) e) (by omega)
    · simp only [Ring.content_length, not_lt] at hlt
      have e : mask (2 ^ k) (b.tail + j) = mask (2 ^ k) (b.head + (j - b.occupied (2 ^ k))) := by
        rw [← hhead, mask_mask_add, Nat.add_assoc, show b.occupied (2 ^ k) + (j - b.occupied (2 ^ k)) = j by omega]
      show (memWrite (2 ^ k) b.data b.head bytes).read (mask (2 ^ k) (b.tail + j)) = _
      rw [e, memWrite_read_same hb.2.2.1 (by omega) (by omega)]
      simp

end Sys2Proof.Machine
end

