-- ==== Sys2Proof/Laws/State.lean ====
section
/-!
SUPPORT. One lemma per field and update of State, each true by unfolding, so that no later proof unfolds an update.
-/

namespace Sys2Proof.Machine

@[simp] theorem State.setCmdIn_cmdIn (s : State) (b : Ring) : (s.setCmdIn b).cmdIn = b := rfl
@[simp] theorem State.setCmdIn_cmdOut (s : State) (b : Ring) : (s.setCmdIn b).cmdOut = s.cmdOut := rfl
@[simp] theorem State.setCmdIn_pkt (s : State) (b : Ring) : (s.setCmdIn b).pkt = s.pkt := rfl
@[simp] theorem State.setCmdIn_transportMode (s : State) (b : Ring) : (s.setCmdIn b).transportMode = s.transportMode := rfl
@[simp] theorem State.setCmdIn_history (s : State) (b : Ring) : (s.setCmdIn b).history = s.history := rfl
@[simp] theorem State.setCmdIn_cfg (s : State) (b : Ring) : (s.setCmdIn b).cfg = s.cfg := rfl
@[simp] theorem State.setCmdIn_env (s : State) (b : Ring) : (s.setCmdIn b).env = s.env := rfl

@[simp] theorem State.setCmdIn_setCmdIn (s : State) (b b' : Ring) : (s.setCmdIn b).setCmdIn b' = s.setCmdIn b' := rfl
@[simp] theorem State.setCmdIn_self (s : State) : s.setCmdIn s.cmdIn = s := rfl

@[simp] theorem State.setCmdOut_cmdIn (s : State) (b : Ring) : (s.setCmdOut b).cmdIn = s.cmdIn := rfl
@[simp] theorem State.setCmdOut_cmdOut (s : State) (b : Ring) : (s.setCmdOut b).cmdOut = b := rfl
@[simp] theorem State.setCmdOut_pkt (s : State) (b : Ring) : (s.setCmdOut b).pkt = s.pkt := rfl
@[simp] theorem State.setCmdOut_transportMode (s : State) (b : Ring) : (s.setCmdOut b).transportMode = s.transportMode := rfl
@[simp] theorem State.setCmdOut_history (s : State) (b : Ring) : (s.setCmdOut b).history = s.history := rfl
@[simp] theorem State.setCmdOut_cfg (s : State) (b : Ring) : (s.setCmdOut b).cfg = s.cfg := rfl
@[simp] theorem State.setCmdOut_env (s : State) (b : Ring) : (s.setCmdOut b).env = s.env := rfl

@[simp] theorem State.setCmdOut_setCmdOut (s : State) (b b' : Ring) : (s.setCmdOut b).setCmdOut b' = s.setCmdOut b' := rfl
@[simp] theorem State.setCmdOut_self (s : State) : s.setCmdOut s.cmdOut = s := rfl

@[simp] theorem State.setPkt_cmdIn (s : State) (k : PacketState) : (s.setPkt k).cmdIn = s.cmdIn := rfl
@[simp] theorem State.setPkt_cmdOut (s : State) (k : PacketState) : (s.setPkt k).cmdOut = s.cmdOut := rfl
@[simp] theorem State.setPkt_pkt (s : State) (k : PacketState) : (s.setPkt k).pkt = k := rfl
@[simp] theorem State.setPkt_transportMode (s : State) (k : PacketState) : (s.setPkt k).transportMode = s.transportMode := rfl
@[simp] theorem State.setPkt_history (s : State) (k : PacketState) : (s.setPkt k).history = s.history := rfl
@[simp] theorem State.setPkt_cfg (s : State) (k : PacketState) : (s.setPkt k).cfg = s.cfg := rfl
@[simp] theorem State.setPkt_env (s : State) (k : PacketState) : (s.setPkt k).env = s.env := rfl

@[simp] theorem State.setPkt_setPkt (s : State) (k k' : PacketState) : (s.setPkt k).setPkt k' = s.setPkt k' := rfl
@[simp] theorem State.setPkt_self (s : State) : s.setPkt s.pkt = s := rfl

@[simp] theorem State.setMode_cmdIn (s : State) (m : TransportMode) : (s.setMode m).cmdIn = s.cmdIn := rfl
@[simp] theorem State.setMode_cmdOut (s : State) (m : TransportMode) : (s.setMode m).cmdOut = s.cmdOut := rfl
@[simp] theorem State.setMode_pkt (s : State) (m : TransportMode) : (s.setMode m).pkt = s.pkt := rfl
@[simp] theorem State.setMode_transportMode (s : State) (m : TransportMode) : (s.setMode m).transportMode = m := rfl
@[simp] theorem State.setMode_history (s : State) (m : TransportMode) : (s.setMode m).history = s.history := rfl
@[simp] theorem State.setMode_cfg (s : State) (m : TransportMode) : (s.setMode m).cfg = s.cfg := rfl
@[simp] theorem State.setMode_env (s : State) (m : TransportMode) : (s.setMode m).env = s.env := rfl

@[simp] theorem State.setMode_setMode (s : State) (m m' : TransportMode) : (s.setMode m).setMode m' = s.setMode m' := rfl
@[simp] theorem State.setMode_self (s : State) : s.setMode s.transportMode = s := rfl

@[simp] theorem State.setHistory_cmdIn (s : State) (h : List Event) : (s.setHistory h).cmdIn = s.cmdIn := rfl
@[simp] theorem State.setHistory_cmdOut (s : State) (h : List Event) : (s.setHistory h).cmdOut = s.cmdOut := rfl
@[simp] theorem State.setHistory_pkt (s : State) (h : List Event) : (s.setHistory h).pkt = s.pkt := rfl
@[simp] theorem State.setHistory_transportMode (s : State) (h : List Event) : (s.setHistory h).transportMode = s.transportMode := rfl
@[simp] theorem State.setHistory_history (s : State) (h : List Event) : (s.setHistory h).history = h := rfl
@[simp] theorem State.setHistory_cfg (s : State) (h : List Event) : (s.setHistory h).cfg = s.cfg := rfl
@[simp] theorem State.setHistory_env (s : State) (h : List Event) : (s.setHistory h).env = s.env := rfl

@[simp] theorem State.setHistory_setHistory (s : State) (h h' : List Event) : (s.setHistory h).setHistory h' = s.setHistory h' := rfl
@[simp] theorem State.setHistory_self (s : State) : s.setHistory s.history = s := rfl

@[simp] theorem State.setEnv_cmdIn (s : State) (e : Env) : (s.setEnv e).cmdIn = s.cmdIn := rfl
@[simp] theorem State.setEnv_cmdOut (s : State) (e : Env) : (s.setEnv e).cmdOut = s.cmdOut := rfl
@[simp] theorem State.setEnv_pkt (s : State) (e : Env) : (s.setEnv e).pkt = s.pkt := rfl
@[simp] theorem State.setEnv_transportMode (s : State) (e : Env) : (s.setEnv e).transportMode = s.transportMode := rfl
@[simp] theorem State.setEnv_history (s : State) (e : Env) : (s.setEnv e).history = s.history := rfl
@[simp] theorem State.setEnv_cfg (s : State) (e : Env) : (s.setEnv e).cfg = s.cfg := rfl
@[simp] theorem State.setEnv_env (s : State) (e : Env) : (s.setEnv e).env = e := rfl

@[simp] theorem State.setEnv_setEnv (s : State) (e e' : Env) : (s.setEnv e).setEnv e' = s.setEnv e' := rfl
@[simp] theorem State.setEnv_self (s : State) : s.setEnv s.env = s := rfl

@[simp] theorem State.setHistory_setEnv_self (s : State) (h : List Event) :
    (s.setHistory h).setEnv s.env = s.setHistory h := rfl

/-- Two states with equal fields are equal. -/
theorem State.ext_fields (s t : State) (h1 : s.cmdIn = t.cmdIn) (h2 : s.cmdOut = t.cmdOut) (h3 : s.pkt = t.pkt)
    (h4 : s.transportMode = t.transportMode) (h5 : s.history = t.history) (h6 : s.cfg = t.cfg) (h7 : s.env = t.env) :
    s = t := by
  cases s; cases t; simp_all

end Sys2Proof.Machine
end

