-- ==== Sys2Proof/Laws/Ops.lean ====
section
/-!
SUPPORT. What each shared operation over the state can do, said once: the operations of Machine/Ops.lean, the transport
and the poll.
-/

namespace Sys2Proof.Machine

@[simp] theorem andThen_next {α β : Type} (a : α) (f : α → Result β) : andThen (.next a) f = f a := rfl

@[simp] theorem andThen_fault {α β : Type} (e : Fault) (f : α → Result β) :
    andThen (.fault e : Result α) f = .fault e := rfl

@[simp] theorem andThen_refused {α β : Type} (e : Refusal) (f : α → Result β) :
    andThen (.refused e : Result α) f = .refused e := rfl

/-- If two operations in sequence answer next, the first answered next and the second ran on its answer. -/
theorem andThen_eq_next {α β : Type} {r : Result α} {f : α → Result β} {b : β} (h : andThen r f = .next b) :
    ∃ a, r = .next a ∧ f a = .next b := by
  cases r with
  | next a => exact ⟨a, rfl, h⟩
  | fault e => simp at h
  | refused e => simp at h

/-! ### Reading cmdIn -/

theorem inContent_length (s : State) : (inContent s).length = inCount s := Ring.content_length _ _

theorem peekIn_eq {off n : Nat} {s : State} (h : off + n ≤ inCount s) :
    peekIn off n s = .next (((inContent s).drop off).take n) := Ring.peek_eq _ h

theorem popIn_eq {n : Nat} {s : State} (h : n ≤ inCount s) :
    popIn n s = .next ((inContent s).take n, s.setCmdIn (s.cmdIn.popped s.cfg.nCmdIn n)) := by
  unfold popIn
  rw [show s.cmdIn.pop .cmdIn s.cfg.nCmdIn n = _ from Ring.pop_eq (k := s.cfg.cmdInLog) .cmdIn h]
  rfl

theorem popIn_underflow {n : Nat} {s : State} (h : inCount s < n) :
    popIn n s = .fault (.ringUnderflow .cmdIn n) := by
  unfold popIn
  rw [Ring.pop_underflow .cmdIn h]
  rfl

/-- A Pop of cmdIn that answers: the bytes were there, and only the tail of cmdIn changes. -/
theorem popIn_eq_next {n : Nat} {s : State} {r : List Byte × State} (h : popIn n s = .next r) :
    n ≤ inCount s ∧ r = ((inContent s).take n, s.setCmdIn (s.cmdIn.popped s.cfg.nCmdIn n)) := by
  by_cases hn : n ≤ inCount s
  · rw [popIn_eq hn] at h
    exact ⟨hn, by cases h; rfl⟩
  · rw [popIn_underflow (by omega)] at h
    cases h

/-! ### The history and the outcomes -/

@[simp] theorem emit_cmdIn (e : Event) (s : State) : (emit e s).cmdIn = s.cmdIn := rfl
@[simp] theorem emit_cmdOut (e : Event) (s : State) : (emit e s).cmdOut = s.cmdOut := rfl
@[simp] theorem emit_pkt (e : Event) (s : State) : (emit e s).pkt = s.pkt := rfl
@[simp] theorem emit_transportMode (e : Event) (s : State) : (emit e s).transportMode = s.transportMode := rfl
@[simp] theorem emit_history (e : Event) (s : State) : (emit e s).history = s.history ++ [e] := rfl
@[simp] theorem emit_cfg (e : Event) (s : State) : (emit e s).cfg = s.cfg := rfl
@[simp] theorem emit_env (e : Event) (s : State) : (emit e s).env = s.env := rfl

theorem raiseOutcome_eq (o : BlockOutcome) (s : State) : raiseOutcome o s = emit (.outcome o) s := rfl

@[simp] theorem raiseOutcome_cmdIn (o : BlockOutcome) (s : State) : (raiseOutcome o s).cmdIn = s.cmdIn := rfl
@[simp] theorem raiseOutcome_cmdOut (o : BlockOutcome) (s : State) : (raiseOutcome o s).cmdOut = s.cmdOut := rfl
@[simp] theorem raiseOutcome_pkt (o : BlockOutcome) (s : State) : (raiseOutcome o s).pkt = s.pkt := rfl
@[simp] theorem raiseOutcome_transportMode (o : BlockOutcome) (s : State) :
    (raiseOutcome o s).transportMode = s.transportMode := rfl
@[simp] theorem raiseOutcome_history (o : BlockOutcome) (s : State) :
    (raiseOutcome o s).history = s.history ++ [.outcome o] := rfl
@[simp] theorem raiseOutcome_cfg (o : BlockOutcome) (s : State) : (raiseOutcome o s).cfg = s.cfg := rfl
@[simp] theorem raiseOutcome_env (o : BlockOutcome) (s : State) : (raiseOutcome o s).env = s.env := rfl

/-! ### PacketState -/

@[simp] theorem advance_cmdIn (n : Nat) (s : State) : (advance n s).cmdIn = s.cmdIn := rfl
@[simp] theorem advance_cmdOut (n : Nat) (s : State) : (advance n s).cmdOut = s.cmdOut := rfl
@[simp] theorem advance_pkt (n : Nat) (s : State) : (advance n s).pkt = pastBytes s n := rfl
@[simp] theorem advance_transportMode (n : Nat) (s : State) : (advance n s).transportMode = s.transportMode := rfl
@[simp] theorem advance_history (n : Nat) (s : State) : (advance n s).history = s.history := rfl
@[simp] theorem advance_cfg (n : Nat) (s : State) : (advance n s).cfg = s.cfg := rfl
@[simp] theorem advance_env (n : Nat) (s : State) : (advance n s).env = s.env := rfl
@[simp] theorem advance_outContent (n : Nat) (s : State) : outContent (advance n s) = outContent s := rfl

/-! ### The response push -/

theorem pushResponse_fits {s : State} {r : List Byte} (h : r.length ≤ outSpace s) :
    pushResponse r s = s.setCmdOut (s.cmdOut.pushed s.cfg.nCmdOut r) := by
  unfold pushResponse
  rw [Ring.push_fits h]

theorem pushResponse_drops {s : State} {r : List Byte} (h : outSpace s < r.length) :
    pushResponse r s = raiseOutcome (.responseDropped r.length) s := by
  unfold pushResponse
  rw [Ring.push_overflows h]

@[simp] theorem pushResponse_cmdIn (r : List Byte) (s : State) : (pushResponse r s).cmdIn = s.cmdIn := by
  unfold pushResponse; split <;> rfl

@[simp] theorem pushResponse_pkt (r : List Byte) (s : State) : (pushResponse r s).pkt = s.pkt := by
  unfold pushResponse; split <;> rfl

@[simp] theorem pushResponse_transportMode (r : List Byte) (s : State) :
    (pushResponse r s).transportMode = s.transportMode := by
  unfold pushResponse; split <;> rfl

@[simp] theorem pushResponse_cfg (r : List Byte) (s : State) : (pushResponse r s).cfg = s.cfg := by
  unfold pushResponse; split <;> rfl

@[simp] theorem pushResponse_env (r : List Byte) (s : State) : (pushResponse r s).env = s.env := by
  unfold pushResponse; split <;> rfl

@[simp] theorem pushResponse_history (r : List Byte) (s : State) :
    (pushResponse r s).history = s.history ++ dropEvents s r := by
  unfold dropEvents
  split_ifs with h
  · rw [pushResponse_fits h]; simp
  · rw [pushResponse_drops (by omega)]; simp

@[simp] theorem pushResponse_outTail (r : List Byte) (s : State) :
    (pushResponse r s).cmdOut.tail = s.cmdOut.tail := by
  by_cases h : r.length ≤ outSpace s
  · rw [pushResponse_fits h]; simp
  · rw [pushResponse_drops (by omega)]; simp

/-- R112: the content of cmdOut after a response push. -/
theorem pushResponse_outContent {s : State} (hw : s.cmdOut.Wf s.cfg.nCmdOut) (r : List Byte) :
    outContent (pushResponse r s) = outContent s ++ landed s r := by
  unfold landed
  split_ifs with h
  · rw [pushResponse_fits h]
    exact Ring.pushed_content (k := s.cfg.cmdOutLog) hw h
  · rw [pushResponse_drops (by omega)]
    simp [outContent]

theorem pushResponse_wf {s : State} (hw : s.cmdOut.Wf s.cfg.nCmdOut) (r : List Byte) :
    (pushResponse r s).cmdOut.Wf s.cfg.nCmdOut := by
  by_cases h : r.length ≤ outSpace s
  · rw [pushResponse_fits h]
    exact Ring.pushed_wf (k := s.cfg.cmdOutLog) hw r
  · rw [pushResponse_drops (by omega)]
    exact hw

/-- R112: a response changes no byte of cmdOut's array but those it stores. -/
theorem pushResponse_read_other {s : State} {r : List Byte} {a : Nat}
    (h : ∀ j < r.length, a ≠ mask s.cfg.nCmdOut (s.cmdOut.head + j)) :
    (pushResponse r s).cmdOut.data.read a = s.cmdOut.data.read a := by
  by_cases hf : r.length ≤ outSpace s
  · rw [pushResponse_fits hf]
    exact memWrite_read_other h
  · rw [pushResponse_drops (by omega)]
    rfl

/-! ### The transport -/

theorem Env.capture_afterCaptures (e : Env) (n j : Nat) : (e.afterCaptures n).capture j = e.capture (n + j) := by
  simp only [Env.capture, Env.afterCaptures, List.getD_eq_getElem?_getD, List.getElem?_drop, List.length_drop]
  by_cases h : n + j < e.transportAnswers.length
  · simp [List.getElem?_eq_getElem h]
  · rw [List.getElem?_eq_none (by omega)]
    simp only [Option.getD_none]
    congr 1
    omega

theorem Env.afterCaptures_afterCaptures (e : Env) (n m : Nat) :
    (e.afterCaptures n).afterCaptures m = e.afterCaptures (n + m) := by
  simp only [Env.afterCaptures, List.drop_drop, List.length_drop, Env.mk.injEq, true_and, and_true]
  omega

@[simp] theorem Env.afterCaptures_zero (e : Env) : e.afterCaptures 0 = e := by
  simp [Env.afterCaptures]

theorem eventsFrom_append (mk : TransportCall → U64 → Event) (e : Env) (j : Nat) (xs ys : List TransportCall) :
    eventsFrom mk e j (xs ++ ys) = eventsFrom mk e j xs ++ eventsFrom mk e (j + xs.length) ys := by
  induction xs generalizing j with
  | nil => simp [eventsFrom]
  | cons c rest ih => simp [eventsFrom, ih, Nat.add_assoc, Nat.add_comm 1]

theorem eventsFrom_afterCaptures (mk : TransportCall → U64 → Event) (e : Env) (n j : Nat) (xs : List TransportCall) :
    eventsFrom mk (e.afterCaptures n) j xs = eventsFrom mk e (n + j) xs := by
  induction xs generalizing j with
  | nil => rfl
  | cons c rest ih => simp [eventsFrom, ih, Env.capture_afterCaptures, Nat.add_assoc]

@[simp] theorem afterCalls_cmdIn (cs : List TransportCall) (s : State) : (afterCalls cs s).cmdIn = s.cmdIn := rfl
@[simp] theorem afterCalls_cmdOut (cs : List TransportCall) (s : State) : (afterCalls cs s).cmdOut = s.cmdOut := rfl
@[simp] theorem afterCalls_pkt (cs : List TransportCall) (s : State) : (afterCalls cs s).pkt = s.pkt := rfl
@[simp] theorem afterCalls_transportMode (cs : List TransportCall) (s : State) :
    (afterCalls cs s).transportMode = s.transportMode := rfl
@[simp] theorem afterCalls_history (cs : List TransportCall) (s : State) :
    (afterCalls cs s).history = s.history ++ callEvents s cs := rfl
@[simp] theorem afterCalls_cfg (cs : List TransportCall) (s : State) : (afterCalls cs s).cfg = s.cfg := rfl
@[simp] theorem afterCalls_env (cs : List TransportCall) (s : State) :
    (afterCalls cs s).env = envAfterCalls s cs.length := rfl

theorem callEvents_append (s : State) (xs ys : List TransportCall) :
    callEvents s (xs ++ ys) = callEvents s xs ++ callEvents (afterCalls xs s) ys := by
  unfold callEvents
  simp only [afterCalls_transportMode, afterCalls_env]
  cases hm : s.transportMode <;>
    simp [envAfterCalls, hm, eventsFrom_append, eventsFrom_afterCaptures]

/-- Two sequences of transport operations, one after the other, are one sequence. -/
theorem afterCalls_afterCalls (xs ys : List TransportCall) (s : State) :
    afterCalls ys (afterCalls xs s) = afterCalls (xs ++ ys) s := by
  apply State.ext_fields <;> try rfl
  · simp [callEvents_append]
  · simp only [afterCalls_env, envAfterCalls, afterCalls_transportMode, List.length_append]
    cases s.transportMode <;> simp [Env.afterCaptures_afterCaptures]

@[simp] theorem afterCalls_nil (s : State) : afterCalls [] s = s := by
  apply State.ext_fields <;> try rfl
  · simp only [afterCalls_history, callEvents]
    cases s.transportMode <;> simp [eventsFrom]
  · simp only [afterCalls_env, envAfterCalls]
    cases s.transportMode <;> simp

/-- The answers after a sequence of transport operations are the later answers. -/
theorem callAnswer_afterCalls (xs : List TransportCall) (s : State) (j : Nat) :
    callAnswer (afterCalls xs s) j = callAnswer s (xs.length + j) := by
  unfold callAnswer
  simp only [afterCalls_transportMode, afterCalls_env, afterCalls_cfg, envAfterCalls]
  cases s.transportMode <;> simp [Env.capture_afterCaptures]

/-- R131: one transport operation, in every mode. -/
theorem transport_eq (call : TransportCall) (s : State) :
    transport call s = (callAnswer s 0, afterCalls [call] s) := by
  unfold transport callAnswer
  cases hm : s.transportMode <;> simp only
  · refine Prod.ext rfl ?_
    apply State.ext_fields <;> simp [callEvents, envAfterCalls, hm]
  · refine Prod.ext rfl ?_
    apply State.ext_fields <;> simp [recordCall, callEvents, envAfterCalls, eventsFrom, hm]
  · refine Prod.ext rfl ?_
    apply State.ext_fields <;> simp [recordCall, callEvents, envAfterCalls, eventsFrom, hm]

/-- R137: xferData, in every mode. -/
theorem xferData_eq (n : Nat) (d : U64) (rd : Bool) (s : State) :
    xferData n d rd s = (if rd then callAnswer s 0 else 0, afterCalls [dataCall s.cfg n d] s) := by
  unfold xferData
  rw [transport_eq]

/-- R135: sendCommand inside the domain of FAMILY, in every mode. -/
theorem sendCommand_eq {c : TapCommand} {f : Family} {s : State} (h : familyOf s.cfg c = some f) :
    sendCommand c s = .next (afterCalls [commandCall s.cfg f c] s) := by
  unfold sendCommand
  rw [h]
  simp [transport_eq]

theorem sendCommand_etapControl (s : State) :
    sendCommand .etapControl s = .next (afterCalls [etapCall s.cfg .etapControl] s) := sendCommand_eq rfl

theorem sendCommand_etapData (s : State) :
    sendCommand .etapData s = .next (afterCalls [etapCall s.cfg .etapData] s) := sendCommand_eq rfl

/-! ### The poll -/

theorem pollAttempt_eq (s : State) : pollAttempt s = (callAnswer s 0, afterCalls [pollCall s.cfg] s) := by
  unfold pollAttempt
  rw [xferData_eq]
  rfl

theorem pollFrom_not_ready {bit n i : Nat} {s : State} (h : (callAnswer s 0).getLsbD bit = false) :
    pollFrom bit (n + 1) i s = pollFrom bit n (i + 1) (afterCalls [pollCall s.cfg] s) := by
  rw [pollFrom, pollAttempt_eq]
  simp [h]

theorem pollFrom_ready {bit n i : Nat} {s : State} (h : (callAnswer s 0).getLsbD bit = true) :
    pollFrom bit (n + 1) i s = (some i, afterCalls [pollCall s.cfg] s) := by
  rw [pollFrom, pollAttempt_eq]
  simp [h]

theorem afterCalls_replicate_succ (c : TransportCall) (m : Nat) (s : State) :
    afterCalls (List.replicate m c) (afterCalls [c] s) = afterCalls (List.replicate (m + 1) c) s := by
  rw [afterCalls_afterCalls, List.replicate_succ]
  rfl

/-- R146: a poll none of whose attempts reads ready makes them all and times out. -/
theorem pollFrom_times_out {bit left i : Nat} {s : State}
    (h : ∀ j < left, (callAnswer s j).getLsbD bit = false) :
    pollFrom bit left i s = (none, afterCalls (List.replicate left (pollCall s.cfg)) s) := by
  induction left generalizing i s with
  | zero => simp [pollFrom]
  | succ n ih =>
    rw [pollFrom_not_ready (h 0 (by omega)), ih]
    · simp [afterCalls_replicate_succ]
    · intro j hj
      rw [callAnswer_afterCalls]
      exact h _ (by simp; omega)

/-- R146: a poll whose attempts before the one numbered m + 1 do not read ready, and that one does. -/
theorem pollFrom_reads_ready {bit left i m : Nat} {s : State} (hm : m < left)
    (h : ∀ j < m, (callAnswer s j).getLsbD bit = false) (hr : (callAnswer s m).getLsbD bit = true) :
    pollFrom bit left i s = (some (i + m), afterCalls (List.replicate (m + 1) (pollCall s.cfg)) s) := by
  induction m generalizing left i s with
  | zero =>
    obtain ⟨n, rfl⟩ : ∃ n, left = n + 1 := ⟨left - 1, by omega⟩
    rw [pollFrom_ready hr]
    simp
  | succ m ih =>
    obtain ⟨n, rfl⟩ : ∃ n, left = n + 1 := ⟨left - 1, by omega⟩
    rw [pollFrom_not_ready (h 0 (by omega)), ih (by omega)]
    · rw [afterCalls_cfg, afterCalls_replicate_succ]
      simp; omega
    · intro j hj
      rw [callAnswer_afterCalls]
      exact h _ (by simp; omega)
    · rw [callAnswer_afterCalls]
      rwa [List.length_singleton, Nat.add_comm]

/-- R149, R151: re-arming the control register. -/
theorem rearmControl_eq (s : State) :
    rearmControl s = .next (afterCalls [etapCall s.cfg .etapControl,
      dataCall s.cfg ejtagWidth (s.cfg.controlRearmWord.setWidth 64)] s) := by
  unfold rearmControl
  rw [sendCommand_etapControl]
  simp [xferData_eq, afterCalls_afterCalls]

/-- R149: what XFER_INSTRUCTION does after a poll that read ready. -/
theorem xferReady_eq (w : U32) (s : State) :
    xferReady w s = .next (pushResponse (bytesLE 8 0) (afterCalls (exchangeCalls s.cfg w) s)) := by
  unfold xferReady
  rw [sendCommand_etapData]
  simp [xferData_eq, rearmControl_eq, afterCalls_afterCalls, exchangeCalls]

/-- R151: what GET_PE_RESPONSE does after a poll that read ready. -/
theorem peReady_eq (s : State) :
    peReady s = .next (pushResponse (bytesLE 8 ((callAnswer s 1).setWidth 32).toNat)
      (afterCalls (exchangeCalls s.cfg s.cfg.peReadTdiWord) s)) := by
  unfold peReady
  rw [sendCommand_etapData]
  simp [xferData_eq, rearmControl_eq, afterCalls_afterCalls, exchangeCalls, callAnswer_afterCalls]

end Sys2Proof.Machine
end

