-- ==== Sys2Proof/Laws/Frames.lean ====
section
/-!
SUPPORT. The packet framer: the phases of R24 read backwards, what the scan for a marker does, a Pop of cmdIn in terms of
its content, and the checksum of a stream in parts.
-/

namespace Sys2Proof.Machine

/-! ### The phases of R24 -/

theorem phaseOf_idle {k : PacketState} (h : phaseOf k = some .idle) :
    k.type = .empty ∧ k.status ≠ .overflow ∧ k.expectedLength = 0 ∧ k.currentPos = 0 := by
  obtain ⟨ty, st, e, c⟩ := k
  cases ty <;> cases st <;> simp [phaseOf] at h ⊢ <;>
    first | exact h | (by_cases he : e = 0#16 <;> simp [he] at h)

theorem phaseOf_infoDue {k : PacketState} (h : phaseOf k = some .infoDue) :
    k.type = .info ∧ k.status ≠ .overflow ∧ k.expectedLength = 0 ∧ k.currentPos = 0 := by
  obtain ⟨ty, st, e, c⟩ := k
  cases ty <;> cases st <;> simp [phaseOf] at h ⊢ <;>
    first | exact h | (by_cases he : e = 0#16 <;> simp [he] at h)

theorem phaseOf_awaitLength {k : PacketState} (h : phaseOf k = some .awaitLength) :
    k.type = .packet ∧ k.status = .ok ∧ k.expectedLength = 0 ∧ k.currentPos = 0 := by
  obtain ⟨ty, st, e, c⟩ := k
  cases ty <;> cases st <;> simp [phaseOf] at h ⊢
  by_cases he : e = 0#16 <;> simp_all

theorem phaseOf_awaitBody {k : PacketState} (h : phaseOf k = some .awaitBody) :
    k.type = .packet ∧ k.status = .ok ∧ k.expectedLength ≠ 0 ∧ k.currentPos = 0 := by
  obtain ⟨ty, st, e, c⟩ := k
  cases ty <;> cases st <;> simp [phaseOf] at h ⊢
  by_cases he : e = 0#16 <;> simp_all

theorem phaseOf_executing {k : PacketState} (h : phaseOf k = some .executing) :
    k.type = .packet ∧ k.status = .parsed ∧ k.expectedLength ≠ 0 ∧ k.currentPos.toNat ≤ streamLength k := by
  obtain ⟨ty, st, e, c⟩ := k
  cases ty <;> cases st <;> simp [phaseOf, streamLength] at h ⊢ <;>
    first | exact h | (by_cases he : e = 0#16 <;> simp [he] at h)

theorem phaseOf_executing_intro {k : PacketState} (h1 : k.type = .packet) (h2 : k.status = .parsed)
    (h3 : k.expectedLength ≠ 0) (h4 : k.currentPos.toNat ≤ streamLength k) : phaseOf k = some .executing := by
  simp only [phaseOf, h1, h2]
  exact if_pos ⟨h3, h4⟩

theorem phaseOf_idle_intro {k : PacketState} (h1 : k.type = .empty) (h2 : k.status ≠ .overflow)
    (h3 : k.expectedLength = 0) (h4 : k.currentPos = 0) : phaseOf k = some .idle := by
  simp only [phaseOf, h1]
  exact if_pos ⟨h2, h3, h4⟩

/-! ### Reading and consuming cmdIn -/

/-- R18: cmdIn holds at most N_CMDIN − 1 bytes. -/
theorem inCount_le (s : State) : inCount s ≤ s.cfg.nCmdIn - 1 := Ring.occupied_le _ _

/-- R43: a Pop of cmdIn that fits: what it answers, and that it changes only cmdIn's tail. -/
theorem popIn_spec {s : State} (hw : s.cmdIn.Wf s.cfg.nCmdIn) {n : Nat} (h : n ≤ inCount s) :
    ∃ t, popIn n s = .next ((inContent s).take n, t) ∧ t = s.setCmdIn t.cmdIn ∧
      inContent t = (inContent s).drop n ∧ t.cmdIn.data = s.cmdIn.data ∧ t.cmdIn.head = s.cmdIn.head ∧
      t.cmdIn.Wf s.cfg.nCmdIn :=
  ⟨_, popIn_eq h, rfl, Ring.popped_content (k := s.cfg.cmdInLog) hw h, rfl, rfl,
    Ring.popped_wf (k := s.cfg.cmdInLog) hw n⟩

/-! ### Markers -/

theorem decodeMarker_eq_none {p : Params} {b : Byte} (h : b ≠ p.markPacket ∧ b ≠ p.markInfo) :
    decodeMarker p b = none := by simp [decodeMarker, h.1, h.2]

theorem isMarker_eq_false {p : Params} {b : Byte} (h : b ≠ p.markPacket ∧ b ≠ p.markInfo) :
    isMarker p b = false := by simp [isMarker, decodeMarker_eq_none h]

/-- R94: with no marker buffered the scan finds none. -/
theorem firstMarker_eq_none {s : State} (h : ∀ b ∈ inContent s, b ≠ s.cfg.markPacket ∧ b ≠ s.cfg.markInfo) :
    firstMarker s = none := by
  simp only [firstMarker, List.findSome?_eq_none_iff]
  exact fun b hb => decodeMarker_eq_none (h b hb)

/-- R95, R96: the scan passes over the stray bytes to the first marker. -/
theorem firstMarker_scan {s : State} {strays rest : List Byte} {m : Byte}
    (hs : ∀ b ∈ strays, b ≠ s.cfg.markPacket ∧ b ≠ s.cfg.markInfo) (hm : isMarker s.cfg m = true)
    (hc : inContent s = strays ++ m :: rest) :
    firstMarker s = decodeMarker s.cfg m ∧ strayCount s = strays.length := by
  constructor
  · obtain ⟨i, hi⟩ := Option.isSome_iff_exists.1 hm
    simp [firstMarker, hc, List.findSome?_append,
      List.findSome?_eq_none_iff.2 (fun b hb => decodeMarker_eq_none (hs b hb)), hi]
  · have h1 : strays.findIdx (isMarker s.cfg) = strays.length := by
      rw [List.findIdx_eq_length]
      exact fun b hb => isMarker_eq_false (hs b hb)
    simp [strayCount, hc, List.findIdx_append, h1, List.findIdx_cons, hm]

/-- R93: where the scan finds a marker, that marker is among the bytes buffered. -/
theorem strayCount_lt {s : State} {i : Instr} (h : firstMarker s = some i) : strayCount s < inCount s := by
  obtain ⟨b, hb, hi⟩ := List.exists_of_findSome?_eq_some h
  rw [← inContent_length]
  exact List.findIdx_lt_length_of_exists ⟨b, hb, by simp [isMarker, hi]⟩

theorem decodeMarker_cases {p : Params} {b : Byte} {i : Instr} (h : decodeMarker p b = some i) :
    i = .packet ∨ i = .info := by
  unfold decodeMarker at h
  split_ifs at h <;> simp_all

theorem firstMarker_cases {s : State} {i : Instr} (h : firstMarker s = some i) : i = .packet ∨ i = .info := by
  obtain ⟨b, _, hi⟩ := List.exists_of_findSome?_eq_some h
  exact decodeMarker_cases hi

/-! ### The checksum -/

theorem checksumOf_append (a b : List Byte) : checksumOf (a ++ b) = checksumOf a + checksumOf b := by
  have h : ∀ (l : List Byte) (x : Byte), l.foldl (· + ·) x = x + checksumOf l := by
    intro l
    induction l with
    | nil => intro x; simp [checksumOf]
    | cons c r ih =>
      intro x
      simp only [checksumOf, List.foldl_cons]
      rw [ih, ih (0 + c)]
      simp [BitVec.add_assoc]
  unfold checksumOf
  rw [List.foldl_append, h]
  rfl

theorem checksumOf_cons (c : Byte) (a : List Byte) : checksumOf (c :: a) = c + checksumOf a := by
  simpa [checksumOf] using checksumOf_append [c] a

end Sys2Proof.Machine
end

