-- ==== Sys2Proof/Laws/Exec.lean ====
section
/-!
SUPPORT. What one opcode-stream unit can do, said once (exec_unit), and each opcode's meaning as one equation over the
shared operations.
-/

namespace Sys2Proof.Machine

/-! ### Operand codes (R74, R75) -/

theorem modeOfByte_eq_some {p : Params} (h : p.Wf) {b : Byte} {x : TransportMode} :
    modeOfByte p b = some x ↔ b = modeCode p x := by
  obtain ⟨_, _, _, _, h, _⟩ := h
  simp only [List.nodup_cons, List.mem_cons, List.not_mem_nil, or_false, not_or] at h
  unfold modeOfByte modeCode
  cases x <;> split_ifs <;> simp_all

theorem pinOfByte_eq_some {p : Params} (h : p.Wf) {b : Byte} {x : Pin} :
    pinOfByte p b = some x ↔ b = pinCode p x := by
  obtain ⟨_, _, _, _, _, h, _⟩ := h
  simp only [List.nodup_cons, List.mem_cons, List.not_mem_nil, or_false, not_or] at h
  unfold pinOfByte pinCode
  cases x <;> split_ifs <;> simp_all

theorem dirOfByte_eq_some {p : Params} (h : p.Wf) {b : Byte} {x : Direction} :
    dirOfByte p b = some x ↔ b = dirCode p x := by
  obtain ⟨_, _, _, _, _, _, h, _⟩ := h
  unfold dirOfByte dirCode
  cases x <;> split_ifs <;> simp_all

theorem modeOfByte_eq_none {p : Params} (h : p.Wf) {b : Byte} (hb : ∀ x, b ≠ modeCode p x) : modeOfByte p b = none := by
  cases hx : modeOfByte p b with
  | none => rfl
  | some x => exact absurd ((modeOfByte_eq_some h).1 hx) (hb x)

theorem pinOfByte_eq_none {p : Params} (h : p.Wf) {b : Byte} (hb : ∀ x, b ≠ pinCode p x) : pinOfByte p b = none := by
  cases hx : pinOfByte p b with
  | none => rfl
  | some x => exact absurd ((pinOfByte_eq_some h).1 hx) (hb x)

theorem dirOfByte_eq_none {p : Params} (h : p.Wf) {b : Byte} (hb : ∀ x, b ≠ dirCode p x) : dirOfByte p b = none := by
  cases hx : dirOfByte p b with
  | none => rfl
  | some x => exact absurd ((dirOfByte_eq_some h).1 hx) (hb x)

/-! ### The polls -/

theorem pollReady_times_out {bit : Nat} {s : State} (h : ∀ j < 40, (callAnswer s j).getLsbD bit = false) :
    pollReady bit s = (none, afterCalls (List.replicate 40 (pollCall s.cfg)) s) := pollFrom_times_out h

theorem pollReady_reads_ready {bit m : Nat} {s : State} (hm : m < 40)
    (h : ∀ j < m, (callAnswer s j).getLsbD bit = false) (hr : (callAnswer s m).getLsbD bit = true) :
    pollReady bit s = (some (m + 1), afterCalls (List.replicate (m + 1) (pollCall s.cfg)) s) := by
  rw [pollReady, pollFrom_reads_ready (left := maxPoll) hm h hr, Nat.add_comm 1 m]

/-- R146: a poll either times out after 40 attempts that read not ready, or ends at the first that reads ready. -/
theorem pollReady_cases (bit : Nat) (s : State) :
    (pollReady bit s = (none, afterCalls (List.replicate 40 (pollCall s.cfg)) s) ∧
      ∀ j < 40, (callAnswer s j).getLsbD bit = false) ∨
    ∃ m < 40, pollReady bit s = (some (m + 1), afterCalls (List.replicate (m + 1) (pollCall s.cfg)) s) ∧
      (∀ j < m, (callAnswer s j).getLsbD bit = false) ∧ (callAnswer s m).getLsbD bit = true := by
  by_cases h : ∀ j < 40, (callAnswer s j).getLsbD bit = false
  · exact .inl ⟨pollReady_times_out h, h⟩
  · have hex : ∃ m, m < 40 ∧ (callAnswer s m).getLsbD bit ≠ false := by simpa using h
    obtain ⟨h1, h2⟩ := Nat.find_spec hex
    have h3 : ∀ j < Nat.find hex, (callAnswer s j).getLsbD bit = false := by
      intro j hj
      have := Nat.find_min hex hj
      simp only [not_and, not_not] at this
      exact this (by omega)
    have h2 : (callAnswer s (Nat.find hex)).getLsbD bit = true := by simpa using h2
    exact .inr ⟨_, h1, pollReady_reads_ready h1 h3 h2, h3, h2⟩

/-- R149: XFER_INSTRUCTION as a whole, by what its poll answers. -/
theorem execXferInstruction_eq (w : U32) (s : State) :
    execXferInstruction w s =
      match pollReady s.cfg.probenBit (afterCalls [etapCall s.cfg .etapControl] s) with
      | (none, t) => .next (advance 5 (pollTimedOut .xferInstruction t))
      | (some _, t) => .next (advance 5 (pushResponse (bytesLE 8 0) (afterCalls (exchangeCalls t.cfg w) t))) := by
  unfold execXferInstruction
  rw [sendCommand_etapControl]
  simp only [andThen_next, xferPollBit, afterCalls_cfg]
  rcases pollReady s.cfg.probenBit (afterCalls [etapCall s.cfg .etapControl] s) with ⟨r, t⟩
  cases r <;> simp [xferReady_eq]

/-- R151: GET_PE_RESPONSE as a whole, by what its poll answers. -/
theorem execGetPeResponse_eq (s : State) :
    execGetPeResponse s =
      match pollReady s.cfg.praccBit (afterCalls [etapCall s.cfg .etapControl] (emit (.delay s.cfg.peSettleTicks) s)) with
      | (none, t) => .next (advance 1 (pollTimedOut .getPeResponse t))
      | (some _, t) => .next (advance 1 (pushResponse (bytesLE 8 ((callAnswer t 1).setWidth 32).toNat)
          (afterCalls (exchangeCalls t.cfg t.cfg.peReadTdiWord) t))) := by
  unfold execGetPeResponse
  rw [sendCommand_etapControl]
  simp only [andThen_next, pePollBit, afterCalls_cfg, emit_cfg]
  rcases pollReady s.cfg.praccBit _ with ⟨r, t⟩
  cases r <;> simp [peReady_eq]

/-- R120: SEND as a whole. -/
theorem execSend_eq (pn : U32) (pv : U64) (dn : U32) (dv : U64) (en : U32) (ev : U64) (rd : U32) (s : State) :
    execSend pn pv dn dv en ev rd s =
      .next (advance 29 (respondIf rd (callAnswer s 0) (afterCalls [rawCall pn pv dn dv en ev] s))) := by
  unfold execSend
  rw [transport_eq]

/-! ### What every unit can do -/

/-- R70, R112: the response of a unit that has one is pushed; a unit without one pushes nothing. -/
def answered (r : Option (List Byte)) (s : State) : State :=
  match r with
  | some bytes => pushResponse bytes s
  | none => s

/-- What a unit does to the mode, the history and the outside world before its response: the new ones, with the limits
that R26, R123 and R132 put on them. -/
structure UnitEffect (i : Instr) (s : State) (m : TransportMode) (evs : List Event) (e : Env) (r : Option (List Byte)) :
    Prop where
  mode : m ≠ s.transportMode → ∃ b, i = .setProgMode b
  schedule : e.schedule = s.env.schedule
  drained : e.drained = s.env.drained
  env : drivesTransport i = false → responseBytes i = 0 → e = s.env
  transports : evs.countP isTransportEvent ≤ 45
  delays : evs.countP isDelayEvent ≤ 1
  response : (∀ bytes, r = some bytes → bytes.length = responseBytes i ∧ responseBytes i ≠ 0) ∧
    (r = none → responseBytes i = 0)

/-- The state before a unit's response. -/
abbrev unitState (s : State) (m : TransportMode) (evs : List Event) (e : Env) : State :=
  ((s.setMode m).setHistory (s.history ++ evs)).setEnv e

theorem infoReplyBytes_length (s : State) : (infoReplyBytes s).length = 128 := by
  unfold infoReplyBytes
  split <;> simp

theorem countP_eventsFrom_le (f : Event → Bool) (mk : TransportCall → U64 → Event) (e : Env) (j : Nat)
    (cs : List TransportCall) : (eventsFrom mk e j cs).countP f ≤ cs.length := by
  induction cs generalizing j with
  | nil => simp [eventsFrom]
  | cons c rest ih =>
    have := ih (j + 1)
    simp only [eventsFrom, List.countP_cons, List.length_cons]
    split <;> omega

theorem countP_callEvents_le (f : Event → Bool) (s : State) (cs : List TransportCall) :
    (callEvents s cs).countP f ≤ cs.length := by
  unfold callEvents
  cases s.transportMode <;> simp [countP_eventsFrom_le]

theorem countP_delay_eventsFrom_jtag (e : Env) (j : Nat) (cs : List TransportCall) :
    (eventsFrom .sendJTAG e j cs).countP isDelayEvent = 0 := by
  induction cs generalizing j with
  | nil => rfl
  | cons c rest ih => simp [eventsFrom, isDelayEvent, ih]

theorem countP_delay_eventsFrom_icsp (e : Env) (j : Nat) (cs : List TransportCall) :
    (eventsFrom .sendICSP e j cs).countP isDelayEvent = 0 := by
  induction cs generalizing j with
  | nil => rfl
  | cons c rest ih => simp [eventsFrom, isDelayEvent, ih]

theorem countP_delay_callEvents (s : State) (cs : List TransportCall) :
    (callEvents s cs).countP isDelayEvent = 0 := by
  unfold callEvents
  cases s.transportMode <;> simp [countP_delay_eventsFrom_jtag, countP_delay_eventsFrom_icsp]

@[simp] theorem envAfterCalls_schedule (s : State) (n : Nat) : (envAfterCalls s n).schedule = s.env.schedule := by
  unfold envAfterCalls
  cases s.transportMode <;> rfl

@[simp] theorem envAfterCalls_drained (s : State) (n : Nat) : (envAfterCalls s n).drained = s.env.drained := by
  unfold envAfterCalls
  cases s.transportMode <;> rfl

/-- A unit's effect that is a sequence of transport operations, with events before and after it. -/
theorem UnitEffect.ofCalls {i : Instr} {s : State} (pre post : List Event) (cs : List TransportCall)
    {r : Option (List Byte)} (hd : drivesTransport i = true) (hl : cs.length ≤ 45)
    (h1 : (pre ++ post).countP isTransportEvent = 0) (h2 : (pre ++ post).countP isDelayEvent ≤ 1)
    (hr : (∀ bytes, r = some bytes → bytes.length = responseBytes i ∧ responseBytes i ≠ 0) ∧
      (r = none → responseBytes i = 0)) :
    UnitEffect i s s.transportMode (pre ++ callEvents s cs ++ post) (envAfterCalls s cs.length) r where
  mode h := absurd rfl h
  schedule := by simp
  drained := by simp
  env h := by rw [hd] at h; cases h
  transports := by
    have := countP_callEvents_le isTransportEvent s cs
    simp only [List.countP_append] at h1 ⊢
    omega
  delays := by
    have := countP_delay_callEvents s cs
    simp only [List.countP_append] at h2 ⊢
    omega
  response := hr

theorem respondIf_eq (rd : U32) (cap : U64) (s : State) :
    respondIf rd cap s = answered (if rd = 0 then none else some (bytesLE 8 cap.toNat)) s := by
  unfold respondIf
  by_cases h : rd = 0
  · subst h; rfl
  · rw [if_pos h, if_neg h]; rfl

theorem afterCalls_eq_unitState (cs : List TransportCall) (s : State) :
    afterCalls cs s = unitState s s.transportMode ([] ++ callEvents s cs ++ []) (envAfterCalls s cs.length) := by
  simp [afterCalls, unitState]

/-- What every opcode-stream unit can do (R109 to R123): it always answers a next state; its events, mode and answers are
within the limits of UnitEffect; its response is its last action; currentPos moves past its bytes. -/
theorem exec_unit {i : Instr} (hi : i.isStreamUnit = true) (s : State) :
    ∃ m evs e r, UnitEffect i s m evs e r ∧
      exec i s = .next (advance (instrLength i) (answered r (unitState s m evs e))) := by
  have quiet : ∀ (i : Instr) (evs : List Event), responseBytes i = 0 → evs.countP isTransportEvent = 0 →
      evs.countP isDelayEvent = 0 → UnitEffect i s s.transportMode evs s.env none := fun i evs h0 h1 h2 =>
    ⟨fun h => absurd rfl h, rfl, rfl, fun _ _ => rfl, by omega, by omega, by simp, fun _ => h0⟩
  cases i with
  | info => cases hi
  | packet => cases hi
  | getInfo =>
    refine ⟨s.transportMode, [], s.env, some (infoReplyBytes s),
      ⟨fun h => absurd rfl h, rfl, rfl, fun _ _ => rfl, by simp, by simp, ?_, by simp⟩, ?_⟩
    · simp [infoReplyBytes_length, responseBytes]
    · simp [exec, execGetInfo, answered, unitState, instrLength]
  | setSpeed khz =>
    exact ⟨s.transportMode, [], s.env, none, quiet _ _ rfl rfl rfl, by simp [exec, execSetSpeed, answered, unitState, instrLength]⟩
  | setProgMode b =>
    cases h : modeOfByte s.cfg b with
    | none =>
      exact ⟨s.transportMode, [.outcome (.invalidOperand .setProgMode [b])], s.env, none, quiet _ _ rfl rfl rfl, by
        simp [exec, execSetProgMode, applyProgMode, h, answered, unitState, instrLength, raiseOutcome_eq, emit]⟩
    | some x =>
      refine ⟨x, [], s.env, none, ⟨fun _ => ⟨b, rfl⟩, rfl, rfl, fun _ _ => rfl, by simp, by simp, by simp, fun _ => rfl⟩, ?_⟩
      simp [exec, execSetProgMode, applyProgMode, h, answered, unitState, instrLength, State.setMode, State.setHistory,
        State.setEnv]
  | setPinIoMode pin dir =>
    cases hp : pinOfByte s.cfg pin with
    | none =>
      exact ⟨s.transportMode, [.outcome (.invalidOperand .setPinIoMode [pin, dir])], s.env, none, quiet _ _ rfl rfl rfl, by
        simp [exec, execSetPinIoMode, applyPinIoMode, hp, answered, unitState, instrLength, raiseOutcome_eq, emit]⟩
    | some p =>
      cases hd : dirOfByte s.cfg dir with
      | none =>
        exact ⟨s.transportMode, [.outcome (.invalidOperand .setPinIoMode [pin, dir])], s.env, none, quiet _ _ rfl rfl rfl, by
          simp [exec, execSetPinIoMode, applyPinIoMode, hp, hd, answered, unitState, instrLength, raiseOutcome_eq, emit]⟩
      | some d =>
        exact ⟨s.transportMode, [.gpioSetup p d], s.env, none, quiet _ _ rfl rfl rfl, by
          simp [exec, execSetPinIoMode, applyPinIoMode, hp, hd, answered, unitState, instrLength, emit]⟩
  | setPinWrite pin level =>
    cases hp : pinOfByte s.cfg pin with
    | none =>
      exact ⟨s.transportMode, [.outcome (.invalidOperand .setPinWrite [pin])], s.env, none, quiet _ _ rfl rfl rfl, by
        simp [exec, execSetPinWrite, applyPinWrite, hp, answered, unitState, instrLength, raiseOutcome_eq, emit]⟩
    | some p =>
      exact ⟨s.transportMode, [.gpioSet p (levelOfByte level)], s.env, none, quiet _ _ rfl rfl rfl, by
        simp [exec, execSetPinWrite, applyPinWrite, hp, answered, unitState, instrLength, emit]⟩
  | setPinRead pin =>
    cases hp : pinOfByte s.cfg pin with
    | none =>
      refine ⟨s.transportMode, [.outcome (.invalidOperand .setPinRead [pin])], s.env, some (bytesLE 4 0),
        ⟨fun h => absurd rfl h, rfl, rfl, fun _ _ => rfl, by simp [isTransportEvent], by simp [isDelayEvent], ?_, by simp⟩, ?_⟩
      · simp [responseBytes]
      · simp [exec, execSetPinRead, samplePin, hp, answered, unitState, instrLength, raiseOutcome_eq, emit]
    | some p =>
      refine ⟨s.transportMode, [.gpioGet p s.env.level], s.env.afterLevel, some (bytesLE 4 (normaliseLevel s.env.level)),
        ⟨fun h => absurd rfl h, rfl, rfl, fun _ h => by simp [responseBytes] at h, by simp [isTransportEvent],
          by simp [isDelayEvent], ?_, by simp⟩, ?_⟩
      · simp [responseBytes]
      · simp [exec, execSetPinRead, samplePin, gpioGet, hp, answered, unitState, instrLength, emit,
          State.setEnv, State.setHistory, State.setMode]
  | send pn pv dn dv en ev rd =>
    refine ⟨s.transportMode, [] ++ callEvents s [rawCall pn pv dn dv en ev] ++ [], envAfterCalls s 1,
      if rd = 0 then none else some (bytesLE 8 (callAnswer s 0).toNat),
      UnitEffect.ofCalls (cs := [rawCall pn pv dn dv en ev]) [] [] rfl (by simp) rfl (by simp) ?_, ?_⟩
    · by_cases h : rd = 0 <;> simp [h, responseBytes]
    · rw [exec, execSend_eq, respondIf_eq, afterCalls_eq_unitState]
      rfl
  | xferInstruction w =>
    rw [exec, execXferInstruction_eq]
    rcases pollReady_cases s.cfg.probenBit (afterCalls [etapCall s.cfg .etapControl] s) with ⟨h, _⟩ | ⟨m, hm, h, _⟩
    · refine ⟨s.transportMode, [] ++ callEvents s (pollCalls s.cfg 40) ++ [.outcome (.pollTimeout .xferInstruction)],
        envAfterCalls s (pollCalls s.cfg 40).length, some (bytesLE 8 s.cfg.failSentinel.toNat),
        UnitEffect.ofCalls [] _ _ rfl (by simp [pollCalls]) rfl (by simp [isDelayEvent]) (by simp [responseBytes]), ?_⟩
      rw [h]
      simp only [pollTimedOut, answered, instrLength, afterCalls_cfg, afterCalls_afterCalls]
      congr 3
      apply State.ext_fields <;> simp [unitState, pollCalls]
    · refine ⟨s.transportMode, [] ++ callEvents s (pollCalls s.cfg (m + 1) ++ exchangeCalls s.cfg w) ++ [],
        envAfterCalls s (pollCalls s.cfg (m + 1) ++ exchangeCalls s.cfg w).length, some (bytesLE 8 0),
        UnitEffect.ofCalls [] _ _ rfl (by simp [pollCalls, exchangeCalls]; omega) rfl (by simp) (by simp [responseBytes]), ?_⟩
      rw [h, ← afterCalls_eq_unitState]
      simp only [answered, instrLength, afterCalls_cfg, afterCalls_afterCalls]
      rfl
  | getPeResponse =>
    rw [exec, execGetPeResponse_eq]
    have hpre : ∀ cs, afterCalls cs (emit (.delay s.cfg.peSettleTicks) s) =
        unitState s s.transportMode ([.delay s.cfg.peSettleTicks] ++ callEvents s cs ++ [])
          (envAfterCalls s cs.length) := fun cs => by
      apply State.ext_fields <;> simp [unitState, callEvents, envAfterCalls]
    rcases pollReady_cases s.cfg.praccBit
      (afterCalls [etapCall s.cfg .etapControl] (emit (.delay s.cfg.peSettleTicks) s)) with ⟨h, _⟩ | ⟨m, hm, h, _⟩
    · refine ⟨s.transportMode, [.delay s.cfg.peSettleTicks] ++ callEvents s (pollCalls s.cfg 40) ++
          [.outcome (.pollTimeout .getPeResponse)],
        envAfterCalls s (pollCalls s.cfg 40).length, some (bytesLE 8 s.cfg.failSentinel.toNat),
        UnitEffect.ofCalls _ _ _ rfl (by simp [pollCalls]) rfl (by exact Nat.le_refl 1) (by simp [responseBytes]), ?_⟩
      rw [h]
      simp only [pollTimedOut, answered, instrLength, afterCalls_cfg, emit_cfg, afterCalls_afterCalls]
      rw [hpre]
      congr 3
      apply State.ext_fields <;> simp [unitState, pollCalls]
    · refine ⟨s.transportMode, [.delay s.cfg.peSettleTicks] ++
          callEvents s (pollCalls s.cfg (m + 1) ++ exchangeCalls s.cfg s.cfg.peReadTdiWord) ++ [],
        envAfterCalls s (pollCalls s.cfg (m + 1) ++ exchangeCalls s.cfg s.cfg.peReadTdiWord).length,
        some (bytesLE 8 ((callAnswer (afterCalls (pollCalls s.cfg (m + 1))
          (emit (.delay s.cfg.peSettleTicks) s)) 1).setWidth 32).toNat),
        UnitEffect.ofCalls _ _ _ rfl (by simp [pollCalls, exchangeCalls]; omega) rfl (by simp [isDelayEvent])
          (by simp [responseBytes]), ?_⟩
      rw [h, ← hpre]
      simp only [answered, instrLength, afterCalls_cfg, emit_cfg, afterCalls_afterCalls]
      rfl
  | unrecognisedByte b =>
    exact ⟨s.transportMode, [.outcome (.unknownOpcode b)], s.env, none, quiet _ _ rfl rfl rfl, by
      simp [exec, execUnrecognisedByte, answered, unitState, instrLength, raiseOutcome_eq, emit]⟩

end Sys2Proof.Machine
end

