-- ==== Sys2Proof/Laws/Engine.lean ====
section
/-!
SUPPORT. What one transition of the engine can do, said once (engineStep_does), and what it fetches from the opcode
stream (fetchUnit_eq); the agents' moves; and that a unit does not look at cmdIn.
-/

namespace Sys2Proof.Machine

/-! ### The response -/

@[simp] theorem answered_none (s : State) : answered none s = s := rfl
@[simp] theorem answered_some (r : List Byte) (s : State) : answered (some r) s = pushResponse r s := rfl

@[simp] theorem answered_cmdIn (r : Option (List Byte)) (s : State) : (answered r s).cmdIn = s.cmdIn := by
  cases r <;> simp
@[simp] theorem answered_pkt (r : Option (List Byte)) (s : State) : (answered r s).pkt = s.pkt := by
  cases r <;> simp
@[simp] theorem answered_transportMode (r : Option (List Byte)) (s : State) :
    (answered r s).transportMode = s.transportMode := by cases r <;> simp
@[simp] theorem answered_cfg (r : Option (List Byte)) (s : State) : (answered r s).cfg = s.cfg := by
  cases r <;> simp
@[simp] theorem answered_env (r : Option (List Byte)) (s : State) : (answered r s).env = s.env := by
  cases r <;> simp
@[simp] theorem answered_outTail (r : Option (List Byte)) (s : State) :
    (answered r s).cmdOut.tail = s.cmdOut.tail := by cases r <;> simp

theorem answered_wf {s : State} (hw : s.cmdOut.Wf s.cfg.nCmdOut) (r : Option (List Byte)) :
    (answered r s).cmdOut.Wf s.cfg.nCmdOut := by
  cases r with
  | none => exact hw
  | some bytes => exact pushResponse_wf hw bytes

theorem answered_outContent {s : State} (hw : s.cmdOut.Wf s.cfg.nCmdOut) (r : Option (List Byte)) :
    outContent s <+: outContent (answered r s) := by
  cases r with
  | none => exact List.prefix_refl _
  | some bytes => rw [answered_some, pushResponse_outContent hw]; exact List.prefix_append _ _

theorem answered_history (r : Option (List Byte)) (s : State) :
    ∃ evs, (answered r s).history = s.history ++ evs ∧ evs.countP isTransportEvent = 0 ∧
      evs.countP isDelayEvent = 0 := by
  cases r with
  | none => exact ⟨[], by simp⟩
  | some bytes =>
    refine ⟨dropEvents s bytes, by simp, ?_, ?_⟩ <;> unfold dropEvents <;> split <;> rfl

/-! ### Fetching a unit -/

/-- What the decoder reads in the opcode stream is an opcode-stream unit. -/
theorem decode_isStreamUnit {p : Params} {bytes rest : List Byte} {i : Instr} (h : decode p bytes = .unit i rest) :
    i.isStreamUnit = true := by
  unfold decode at h
  split at h
  · cases h
  · split at h
    · cases h; rfl
    · rename_i op _
      split at h
      · cases h
      · cases h
        cases op <;> try rfl
        simp only [decodeOperands, decodeSend]
        split <;> rfl

/-- R109: the part of the opcode stream that is not yet executed. -/
def streamLeft (s : State) : List Byte :=
  ((inContent s).drop s.pkt.currentPos.toNat).take (streamLength s.pkt - s.pkt.currentPos.toNat)

theorem streamLeft_length {s : State} (he : s.pkt.expectedLength.toNat ≤ inCount s) :
    (streamLeft s).length = streamLength s.pkt - s.pkt.currentPos.toNat := by
  unfold streamLeft
  rw [List.length_take, List.length_drop, inContent_length]
  unfold streamLength
  omega

/-- R109: while the packet's bytes lie in cmdIn, the unit fetched is the one the decoder reads in what is left of the
opcode stream. -/
theorem fetchUnit_eq {s : State} (hc : s.pkt.currentPos.toNat < streamLength s.pkt)
    (he : s.pkt.expectedLength.toNat ≤ inCount s) :
    fetchUnit s = .next (match decode s.cfg (streamLeft s) with
      | .unit i _ => .unit i []
      | .truncated op => .truncated op
      | .noByte => .noByte) := by
  have hlen := streamLeft_length he
  have hL : streamLength s.pkt ≤ s.pkt.expectedLength.toNat := by unfold streamLength; omega
  cases hl : streamLeft s with
  | nil => rw [hl] at hlen; simp at hlen; omega
  | cons b rest =>
    have htake : ∀ n, n ≤ streamLength s.pkt - s.pkt.currentPos.toNat →
        ((inContent s).drop s.pkt.currentPos.toNat).take n = (b :: rest).take n := by
      intro n hn
      rw [← hl, streamLeft, List.take_take, Nat.min_eq_left hn]
    rw [hl, List.length_cons] at hlen
    unfold fetchUnit
    rw [peekIn_eq (by omega), htake 1 (by omega)]
    simp only [List.take_succ_cons, List.take_zero, andThen_next, List.headD_cons]
    cases ho : opcodeOfByte s.cfg b with
    | none => simp [decode_unrecognised ho]
    | some op =>
      simp only
      rw [decode_opcode ho rest]
      split_ifs with h1
      · rfl
      · omega
      · omega
      · rw [peekIn_eq (by omega), htake _ (by omega), andThen_next, Nat.add_comm 1, List.take_succ_cons,
          decode_opcode ho, if_neg (by rw [List.length_take]; omega)]
        simp [List.take_take]

/-- R25, R72: what a fetch answers in any state: a unit that ends inside the opcode stream, or a truncated opcode. -/
theorem fetchUnit_next {s : State} {d : Decoded} (h : fetchUnit s = .next d) :
    s.pkt.currentPos.toNat + 1 ≤ inCount s ∧ d ≠ .noByte ∧
      ∀ i rest, d = .unit i rest → i.isStreamUnit = true ∧
        (s.pkt.currentPos.toNat < streamLength s.pkt → s.pkt.currentPos.toNat + instrLength i ≤ streamLength s.pkt) := by
  unfold fetchUnit at h
  obtain ⟨first, h1, h2⟩ := andThen_eq_next h
  have hc : s.pkt.currentPos.toNat + 1 ≤ inCount s := by
    by_contra hn
    rw [peekIn, Ring.peek_underflow .cmdIn (by unfold inCount at hn; omega)] at h1
    cases h1
  rw [peekIn_eq hc] at h1
  cases h1
  have hne : (inContent s).drop s.pkt.currentPos.toNat ≠ [] := by
    rw [Ne, List.drop_eq_nil_iff, inContent_length]; omega
  obtain ⟨b, tl, hb⟩ := List.exists_cons_of_ne_nil hne
  refine ⟨hc, ?_⟩
  rw [hb] at h2
  simp only [List.take_succ_cons, List.take_zero, List.headD_cons] at h2
  cases ho : opcodeOfByte s.cfg b with
  | none =>
    rw [ho] at h2
    simp only [decode_unrecognised ho] at h2
    cases h2
    exact ⟨by simp, fun i rest h => by cases h; exact ⟨rfl, fun h => h⟩⟩
  | some op =>
    rw [ho] at h2
    simp only at h2
    split_ifs at h2 with hk
    · cases h2
      exact ⟨by simp, fun i rest h => by cases h⟩
    · obtain ⟨bytes, h3, h4⟩ := andThen_eq_next h2
      have hc' : s.pkt.currentPos.toNat + (1 + operandBytes op) ≤ inCount s := by
        by_contra hn
        rw [peekIn, Ring.peek_underflow .cmdIn (by unfold inCount at hn; omega)] at h3
        cases h3
      rw [peekIn_eq hc', hb, Nat.add_comm 1, List.take_succ_cons] at h3
      cases h3
      have hl : operandBytes op ≤ tl.length := by
        have := congrArg List.length hb
        rw [List.length_drop, inContent_length, List.length_cons] at this
        omega
      rw [decode_opcode ho, if_neg (by rw [List.length_take]; omega)] at h4
      cases h4
      refine ⟨by simp, fun i rest h => ?_⟩
      cases h
      refine ⟨?_, fun _ => by rw [instrLength_decodeOperands]; omega⟩
      cases op <;> try rfl
      simp only [decodeOperands, decodeSend]
      split <;> rfl

/-! ### What a transition can do -/

/-- The state after a Pop of `n` bytes of cmdIn. -/
abbrev consumed (n : Nat) (s : State) : State := s.setCmdIn (s.cmdIn.popped s.cfg.nCmdIn n)

theorem execPacket_eq {s : State} (h : strayCount s < inCount s) :
    execPacket s = .next ((consumed (strayCount s + 1) s).setPkt
      { type := .packet, status := .ok, expectedLength := 0, currentPos := 0 }) := by
  unfold execPacket
  rw [popIn_eq (by omega)]
  rfl

theorem execInfo_eq {s : State} (h : strayCount s < inCount s) :
    execInfo s = .next ((consumed (strayCount s + 1) s).setPkt { s.pkt with type := .info }) := by
  unfold execInfo
  rw [popIn_eq (by omega)]
  rfl

/-- R93: the transitions of the engine, each with the state it leaves. -/
inductive EngineDoes (s : State) : State → Prop where
  | suspend (h : suspended s = true) : EngineDoes s s
  | scanPacket (hp : phaseOf s.pkt = some .idle) (hm : firstMarker s = some .packet) (hk : strayCount s < inCount s) :
    EngineDoes s ((consumed (strayCount s + 1) s).setPkt
      { type := .packet, status := .ok, expectedLength := 0, currentPos := 0 })
  | scanInfo (hp : phaseOf s.pkt = some .idle) (hm : firstMarker s = some .info) (hk : strayCount s < inCount s) :
    EngineDoes s ((consumed (strayCount s + 1) s).setPkt { s.pkt with type := .info })
  | infoReply (hp : phaseOf s.pkt = some .infoDue) : EngineDoes s (infoReply s)
  | lengthRead (hp : phaseOf s.pkt = some .awaitLength) (hn : 2 ≤ inCount s) :
    EngineDoes s ((consumed 2 s).setPkt
      { s.pkt with expectedLength := BitVec.ofNat 16 (leNat ((inContent s).take 2)) })
  | accept (hp : phaseOf s.pkt = some .awaitBody) (hn : s.pkt.expectedLength.toNat ≤ inCount s) :
    EngineDoes s (acceptPacket s)
  | discard (sum c : Byte) (hp : phaseOf s.pkt = some .awaitBody) (hn : s.pkt.expectedLength.toNat ≤ inCount s) :
    EngineDoes s (raiseOutcome (.checksumMismatch sum c)
      (returnToEmpty (consumed s.pkt.expectedLength.toNat (setStatus .error s))))
  | unit (i : Instr) (rest : List Byte) (m : TransportMode) (evs : List Event) (e : Env) (r : Option (List Byte))
    (hp : phaseOf s.pkt = some .executing) (hc : s.pkt.currentPos.toNat < streamLength s.pkt)
    (hf : fetchUnit s = .next (.unit i rest)) (he : UnitEffect i s m evs e r)
    (hx : exec i s = .next (advance (instrLength i) (answered r (unitState s m evs e)))) :
    EngineDoes s (advance (instrLength i) (answered r (unitState s m evs e)))
  | truncated (op : Opcode) (hp : phaseOf s.pkt = some .executing) (hc : s.pkt.currentPos.toNat < streamLength s.pkt)
    (hf : fetchUnit s = .next (.truncated op)) : EngineDoes s (truncateScan op s)
  | retire (hp : phaseOf s.pkt = some .executing) (hc : streamLength s.pkt ≤ s.pkt.currentPos.toNat)
    (hn : s.pkt.expectedLength.toNat ≤ inCount s) :
    EngineDoes s (returnToEmpty (consumed s.pkt.expectedLength.toNat s))

/-- R93: whatever the engine's transition leaves is one of these. -/
theorem engineStep_does {s t : State} (h : engineStep s = .next t) : EngineDoes s t := by
  unfold engineStep at h
  cases hp : phaseOf s.pkt with
  | none => rw [hp] at h; cases h
  | some ph =>
    rw [hp] at h
    cases ph with
    | idle =>
      simp only [idleStep] at h
      cases hm : firstMarker s with
      | none => rw [hm] at h; cases h; exact .suspend (by simp [suspended, hp, hm])
      | some i =>
        rw [hm] at h
        have hk := strayCount_lt hm
        rcases firstMarker_cases hm with rfl | rfl
        · simp only [exec, execPacket_eq hk] at h
          cases h
          exact .scanPacket hp hm hk
        · simp only [exec, execInfo_eq hk] at h
          cases h
          exact .scanInfo hp hm hk
    | infoDue => cases h; exact .infoReply hp
    | awaitLength =>
      simp only at h
      split_ifs at h with hn
      · cases h; exact .suspend (by simp [suspended, hp, hn])
      · unfold lengthRead at h
        rw [popIn_eq (by omega)] at h
        cases h
        exact .lengthRead hp (by omega)
    | awaitBody =>
      simp only at h
      split_ifs at h with hn
      · cases h; exact .suspend (by simp [suspended, hp, hn])
      · have hE : s.pkt.expectedLength.toNat ≠ 0 := by
          have := (phaseOf_awaitBody hp).2.2.1
          intro h0
          exact this (BitVec.eq_of_toNat_eq h0)
        unfold checksumStep at h
        rw [peekIn_eq (by unfold streamLength; omega), andThen_next,
          peekIn_eq (by unfold streamLength; omega), andThen_next] at h
        unfold statusOfCheck at h
        split_ifs at h with hs
        · cases h; exact .accept hp (by omega)
        · unfold discardPacket at h
          have : inCount (setStatus .error s) = inCount s := rfl
          simp only at h
          rw [popIn_eq (by omega)] at h
          cases h
          exact .discard _ _ hp (by omega)
    | executing =>
      simp only at h
      split_ifs at h with hc
      · unfold executorStep at h
        obtain ⟨d, hd, hx⟩ := andThen_eq_next h
        obtain ⟨_, hne, hu⟩ := fetchUnit_next hd
        cases d with
        | unit i rest =>
          obtain ⟨hi, _⟩ := hu i rest rfl
          obtain ⟨m, evs, e, r, he, hx'⟩ := exec_unit hi s
          simp only [hx'] at hx
          cases hx
          exact .unit i rest m evs e r hp hc hd he hx'
        | truncated op => cases hx; exact .truncated op hp hc hd
        | noByte => exact absurd rfl hne
      · unfold Machine.retire at h
        have hn : s.pkt.expectedLength.toNat ≤ inCount s := by
          by_contra hn
          rw [popIn_underflow (by omega)] at h
          cases h
        rw [popIn_eq hn] at h
        cases h
        exact .retire hp (by omega) hn

/-! ### The moves of the agents -/

/-- R46: drainOutbound in terms of cmdOut's content. -/
theorem drainOutbound_eq (n : Nat) (s : State) :
    drainOutbound n s =
      .next ((s.setCmdOut (s.cmdOut.popped s.cfg.nCmdOut (min n (s.cmdOut.occupied s.cfg.nCmdOut)))).setEnv
        { s.env with
          drained := s.env.drained ++ (outContent s).take (min n (s.cmdOut.occupied s.cfg.nCmdOut)) }) := by
  unfold drainOutbound
  rw [show s.cmdOut.pop .cmdOut s.cfg.nCmdOut (min n (s.cmdOut.occupied s.cfg.nCmdOut)) = _ from
    Ring.pop_eq (k := s.cfg.cmdOutLog) .cmdOut (Nat.min_le_right _ _)]
  rfl

/-- R45: pushInbound of bytes that fit. -/
theorem pushInbound_fits {bytes : List Byte} {s : State} (h : bytes.length ≤ s.cmdIn.spaceLeft s.cfg.nCmdIn) :
    pushInbound bytes s = s.setCmdIn (s.cmdIn.pushed s.cfg.nCmdIn bytes) := by
  unfold pushInbound
  rw [Ring.push_fits h]

/-- R170: a step that answers is the engine's transition, a push or a drain. -/
theorem step_eq_next {s t : State} (h : step s = .next t) :
    (nextMove s = .engine ∧ engineStep (takeMove s) = .next t) ∨
    (∃ bytes, nextMove s = .pushInbound bytes ∧ t = pushInbound bytes (takeMove s)) ∨
    ∃ n, nextMove s = .drainOutbound n ∧ drainOutbound n (takeMove s) = .next t := by
  unfold step moveStep at h
  cases hm : nextMove s with
  | engine => rw [hm] at h; exact .inl ⟨rfl, h⟩
  | pushInbound bytes => rw [hm] at h; cases h; exact .inr (.inl ⟨bytes, rfl, rfl⟩)
  | drainOutbound n => rw [hm] at h; exact .inr (.inr ⟨n, rfl, h⟩)

/-- With nothing scheduled, a step is the engine's transition. -/
theorem step_of_empty_schedule {s : State} (h : s.env.schedule = []) : step s = engineStep s := by
  have h1 : takeMove s = s := by
    apply State.ext_fields <;> try rfl
    show { s.env with schedule := s.env.schedule.tail } = s.env
    rw [h]
    cases he : s.env
    simp_all
  simp [step, moveStep, nextMove, h, h1]

/-! ### A unit does not look at cmdIn -/

theorem pushResponse_setCmdIn (r : List Byte) (s : State) (b : Ring) :
    pushResponse r (s.setCmdIn b) = (pushResponse r s).setCmdIn b := by
  unfold pushResponse
  simp only [State.setCmdIn_cmdOut, State.setCmdIn_cfg]
  split <;> rfl

theorem advance_pushResponse_setCmdIn (n : Nat) (r : List Byte) (u : State) (b : Ring) :
    (Host.Outcome.next (advance n (pushResponse r (u.setCmdIn b))) : Result State) =
      .next ((advance n (pushResponse r u)).setCmdIn b) := by
  rw [pushResponse_setCmdIn]
  rfl

theorem pollFrom_setCmdIn (bit n i : Nat) (s : State) (b : Ring) :
    pollFrom bit n i (s.setCmdIn b) = ((pollFrom bit n i s).1, (pollFrom bit n i s).2.setCmdIn b) := by
  induction n generalizing i s with
  | zero => rfl
  | succ n ih =>
    have h1 : pollAttempt (s.setCmdIn b) = ((pollAttempt s).1, (pollAttempt s).2.setCmdIn b) := by
      rw [pollAttempt_eq, pollAttempt_eq]
      rfl
    simp only [pollFrom, h1]
    split
    · rfl
    · exact ih _ _

/-- R61: what a unit does is the same whatever cmdIn holds, and cmdIn stays as it is. -/
theorem exec_setCmdIn {i : Instr} (hi : i.isStreamUnit = true) {s t : State} (b : Ring) (h : exec i s = .next t) :
    exec i (s.setCmdIn b) = .next (t.setCmdIn b) := by
  cases i with
  | info => cases hi
  | packet => cases hi
  | getInfo =>
    cases h
    exact advance_pushResponse_setCmdIn 1 _ s b
  | setSpeed => cases h; rfl
  | setProgMode m =>
    cases h
    simp only [exec, execSetProgMode, applyProgMode, State.setCmdIn_cfg]
    cases modeOfByte s.cfg m <;> rfl
  | setPinIoMode p d =>
    cases h
    simp only [exec, execSetPinIoMode, applyPinIoMode, State.setCmdIn_cfg]
    cases pinOfByte s.cfg p <;> cases dirOfByte s.cfg d <;> rfl
  | setPinWrite p d =>
    cases h
    simp only [exec, execSetPinWrite, applyPinWrite, State.setCmdIn_cfg]
    cases pinOfByte s.cfg p <;> rfl
  | setPinRead p =>
    cases h
    simp only [exec, execSetPinRead, samplePin, State.setCmdIn_cfg]
    cases pinOfByte s.cfg p with
    | none => exact advance_pushResponse_setCmdIn 2 _ (raiseOutcome (.invalidOperand .setPinRead [p]) s) b
    | some q => exact advance_pushResponse_setCmdIn 2 _ (gpioGet q s).2 b
  | send pn pv dn dv en ev rd =>
    simp only [exec, execSend_eq] at h ⊢
    cases h
    unfold respondIf
    split
    · exact advance_pushResponse_setCmdIn 29 _ (afterCalls [rawCall pn pv dn dv en ev] s) b
    · rfl
  | xferInstruction w =>
    simp only [exec, execXferInstruction_eq] at h ⊢
    have hq : pollReady (s.setCmdIn b).cfg.probenBit
          (afterCalls [etapCall (s.setCmdIn b).cfg .etapControl] (s.setCmdIn b)) =
        ((pollReady s.cfg.probenBit (afterCalls [etapCall s.cfg .etapControl] s)).1,
          (pollReady s.cfg.probenBit (afterCalls [etapCall s.cfg .etapControl] s)).2.setCmdIn b) :=
      pollFrom_setCmdIn _ _ _ (afterCalls [etapCall s.cfg .etapControl] s) b
    rw [hq]
    generalize pollReady s.cfg.probenBit (afterCalls [etapCall s.cfg .etapControl] s) = q at h
    rcases q with ⟨_ | i, u⟩
    · cases h
      exact advance_pushResponse_setCmdIn 5 _ (raiseOutcome (.pollTimeout .xferInstruction) u) b
    · cases h
      exact advance_pushResponse_setCmdIn 5 _ (afterCalls (exchangeCalls u.cfg w) u) b
  | getPeResponse =>
    simp only [exec, execGetPeResponse_eq] at h ⊢
    generalize hu : afterCalls [etapCall s.cfg .etapControl] (emit (.delay s.cfg.peSettleTicks) s) = u at h
    have hq : pollReady (s.setCmdIn b).cfg.praccBit (afterCalls [etapCall (s.setCmdIn b).cfg .etapControl]
          (emit (.delay (s.setCmdIn b).cfg.peSettleTicks) (s.setCmdIn b))) =
        ((pollReady s.cfg.praccBit u).1, (pollReady s.cfg.praccBit u).2.setCmdIn b) := by
      rw [← hu]
      exact pollFrom_setCmdIn _ _ _
        (afterCalls [etapCall s.cfg .etapControl] (emit (.delay s.cfg.peSettleTicks) s)) b
    rw [hq]
    generalize pollReady s.cfg.praccBit u = q at h
    rcases q with ⟨_ | i, u⟩
    · cases h
      exact advance_pushResponse_setCmdIn 1 _ (raiseOutcome (.pollTimeout .getPeResponse) u) b
    · cases h
      exact advance_pushResponse_setCmdIn 1 _ (afterCalls (exchangeCalls u.cfg u.cfg.peReadTdiWord) u) b
  | unrecognisedByte => cases h; rfl

end Sys2Proof.Machine
end

