-- ==== Sys2Proof/Laws/Info.lean ====
section
/-!
SUPPORT. The layout of the device-info block (00_scope.md R12): infoLayout holds exactly of the sequences of four strings,
each followed by at least one 0x00 byte.
-/

namespace Sys2Proof.Laws

/-- A string without 0x00 bytes, and how many 0x00 bytes follow it. -/
abbrev Segment := List Byte × Nat

/-- The bytes of one segment. -/
abbrev Segment.bytes (g : Segment) : List Byte := g.1 ++ List.replicate g.2 0#8

/-- R12: the sequence is `k` strings, each followed by at least one 0x00 byte. -/
def IsStrings (k : Nat) (bytes : List Byte) : Prop :=
  ∃ gs : List Segment, gs.length = k ∧ (∀ g ∈ gs, 0#8 ∉ g.1 ∧ 1 ≤ g.2) ∧ bytes = gs.flatMap Segment.bytes

theorem nonzeroRuns_replicate_zero (r : Bool) (n : Nat) (rest : List Byte) (h : 1 ≤ n) :
    nonzeroRuns r (List.replicate n 0#8 ++ rest) = nonzeroRuns false rest := by
  induction n generalizing r with
  | zero => omega
  | succ n ih =>
    cases n with
    | zero => simp [nonzeroRuns]
    | succ n => simpa [List.replicate_succ, nonzeroRuns] using ih false (by omega)

theorem nonzeroRuns_true_string (s rest : List Byte) (h : 0#8 ∉ s) :
    nonzeroRuns true (s ++ rest) = nonzeroRuns true rest := by
  induction s with
  | nil => rfl
  | cons b s ih =>
    have hb : b ≠ 0#8 := fun e => h (by simp [e])
    simp [nonzeroRuns, hb, ih (fun m => h (List.mem_cons_of_mem _ m))]

/-- A segment adds at most one non-zero run, and one only where its string is not empty. -/
theorem nonzeroRuns_segment (g : Segment) (rest : List Byte) (h : 0#8 ∉ g.1 ∧ 1 ≤ g.2) :
    nonzeroRuns false (g.bytes ++ rest) = (if g.1 = [] then 0 else 1) + nonzeroRuns false rest := by
  obtain ⟨s, n⟩ := g
  cases s with
  | nil => simpa [Segment.bytes] using nonzeroRuns_replicate_zero false n rest h.2
  | cons b s =>
    have hb : b ≠ 0#8 := fun e => h.1 (by simp [e])
    have hs : 0#8 ∉ s := fun m => h.1 (List.mem_cons_of_mem _ m)
    simp [Segment.bytes, nonzeroRuns, hb, nonzeroRuns_true_string _ _ hs, nonzeroRuns_replicate_zero true n rest h.2]

/-- The strings are at least as many as the runs. -/
theorem nonzeroRuns_segments (gs : List Segment) (h : ∀ g ∈ gs, 0#8 ∉ g.1 ∧ 1 ≤ g.2) :
    nonzeroRuns false (gs.flatMap Segment.bytes) ≤ gs.length := by
  induction gs with
  | nil => simp [nonzeroRuns]
  | cons g gs ih =>
    have := ih (fun x hx => h x (by simp [hx]))
    rw [List.flatMap_cons, nonzeroRuns_segment g _ (h g (by simp))]
    split <;> simp <;> omega

/-- The 0x00 bytes are at least as many as the strings. -/
theorem length_le_count_zero (gs : List Segment) (h : ∀ g ∈ gs, 0#8 ∉ g.1 ∧ 1 ≤ g.2) :
    gs.length ≤ (gs.flatMap Segment.bytes).count 0#8 := by
  induction gs with
  | nil => simp
  | cons g gs ih =>
    have := ih (fun x hx => h x (by simp [hx]))
    have hg := (h g (by simp)).2
    simp [List.flatMap_cons, List.count_append, List.count_replicate_self]
    omega

/-- A sequence of strings ends in 0x00. -/
theorem getLast_segments (gs : List Segment) (hne : gs ≠ []) (h : ∀ g ∈ gs, 0#8 ∉ g.1 ∧ 1 ≤ g.2) :
    (gs.flatMap Segment.bytes).getLast? = some 0#8 := by
  induction gs with
  | nil => exact absurd rfl hne
  | cons g gs ih =>
    have hg := (h g (by simp)).2
    obtain ⟨n, hn⟩ : ∃ n, g.2 = n + 1 := ⟨g.2 - 1, by omega⟩
    cases gs with
    | nil => simp [Segment.bytes, hn, List.replicate_succ']
    | cons g' gs =>
      rw [List.flatMap_cons, List.getLast?_append, ih (by simp) (fun x hx => h x (by simp [hx]))]
      rfl

/-! ### The fewest strings of a sequence, byte by byte -/

theorem fewestStrings_zero_zero (rest : List Byte) : fewestStrings (0#8 :: 0#8 :: rest) = fewestStrings (0#8 :: rest) := by
  simp [fewestStrings, nonzeroRuns]

theorem fewestStrings_zero_byte (c : Byte) (rest : List Byte) (hc : c ≠ 0#8) :
    fewestStrings (0#8 :: c :: rest) = 1 + fewestStrings (c :: rest) := by
  simp [fewestStrings, nonzeroRuns, hc]

theorem fewestStrings_byte (b c : Byte) (rest : List Byte) (hb : b ≠ 0#8) :
    fewestStrings (b :: c :: rest) = fewestStrings (c :: rest) := by
  by_cases hc : c = 0#8 <;> simp [fewestStrings, nonzeroRuns, hb, hc]

theorem fewestStrings_pos (c : Byte) (rest : List Byte) : 1 ≤ fewestStrings (c :: rest) := by
  by_cases hc : c = 0#8 <;> simp [fewestStrings, nonzeroRuns, hc]

/-- The fewest strings are at most the 0x00 bytes, where the sequence ends in one. -/
theorem fewestStrings_le_count (bytes : List Byte) (h : bytes.getLast? = some 0#8) :
    fewestStrings bytes ≤ bytes.count 0#8 := by
  induction bytes with
  | nil => simp at h
  | cons b rest ih =>
    cases rest with
    | nil => simp_all [fewestStrings, nonzeroRuns]
    | cons c rest =>
      have hle := ih (by simpa using h)
      by_cases hb : b = 0#8
      · subst hb
        rw [List.count_cons_self]
        by_cases hc : c = 0#8
        · subst hc; rw [fewestStrings_zero_zero]; omega
        · rw [fewestStrings_zero_byte c rest hc]; omega
      · rw [fewestStrings_byte b c rest hb, List.count_cons_of_ne hb]; exact hle

/-! ### One byte before a sequence of strings -/

/-- A 0x00 byte before the sequence is an empty string. -/
theorem IsStrings.cons_empty {k : Nat} {rest : List Byte} (h : IsStrings k rest) : IsStrings (k + 1) (0#8 :: rest) := by
  obtain ⟨gs, hlen, hgs, rfl⟩ := h
  refine ⟨([], 1) :: gs, by simp [hlen], ?_, by simp [Segment.bytes]⟩
  intro g hg
  rcases List.mem_cons.mp hg with rfl | hg
  · exact ⟨List.not_mem_nil, Nat.le_refl 1⟩
  · exact hgs g hg

/-- A 0x00 byte before a leading 0x00 byte pads the empty string there. -/
theorem IsStrings.cons_padding {k : Nat} {rest : List Byte} (h : IsStrings k (0#8 :: rest)) :
    IsStrings k (0#8 :: 0#8 :: rest) := by
  obtain ⟨gs, hlen, hgs, heq⟩ := h
  cases gs with
  | nil => simp at heq
  | cons g gs =>
    obtain ⟨s, n⟩ := g
    have hg := hgs (s, n) List.mem_cons_self
    cases s with
    | nil =>
      refine ⟨([], n + 1) :: gs, by simpa using hlen, ?_, by rw [heq]; simp [Segment.bytes, List.replicate_succ]⟩
      intro g hg'
      rcases List.mem_cons.mp hg' with rfl | hg'
      · exact ⟨List.not_mem_nil, Nat.le_add_left 1 n⟩
      · exact hgs g (List.mem_cons_of_mem _ hg')
    | cons d s =>
      have hd : (0#8) = d := by simp [Segment.bytes] at heq; exact heq.1
      exact absurd (hd ▸ List.mem_cons_self) hg.1

/-- A non-zero byte before the sequence belongs to its first string. -/
theorem IsStrings.cons_byte {k : Nat} {b : Byte} {rest : List Byte} (hk : 1 ≤ k) (hb : b ≠ 0#8) (h : IsStrings k rest) :
    IsStrings k (b :: rest) := by
  obtain ⟨gs, hlen, hgs, heq⟩ := h
  cases gs with
  | nil => simp at hlen; omega
  | cons g gs =>
    obtain ⟨s, n⟩ := g
    have hg := hgs (s, n) List.mem_cons_self
    refine ⟨(b :: s, n) :: gs, by simpa using hlen, ?_, by rw [heq]; simp [Segment.bytes]⟩
    intro g hg'
    rcases List.mem_cons.mp hg' with rfl | hg'
    · exact ⟨fun m => (List.mem_cons.mp m).elim (fun e => hb e.symm) hg.1, hg.2⟩
    · exact hgs g (List.mem_cons_of_mem _ hg')

/-- Any number of strings between the fewest and the number of 0x00 bytes can be read. -/
theorem isStrings_of_counts (bytes : List Byte) (k : Nat) (h : bytes.getLast? = some 0#8) (hlo : fewestStrings bytes ≤ k)
    (hhi : k ≤ bytes.count 0#8) : IsStrings k bytes := by
  induction bytes generalizing k with
  | nil => simp at h
  | cons b rest ih =>
    have hk : 1 ≤ k := Nat.le_trans (fewestStrings_pos b rest) hlo
    cases rest with
    | nil =>
      have hb : b = 0#8 := by simpa using h
      subst hb
      have : k = 1 := by simp at hhi; omega
      exact ⟨[([], 1)], by simp [this], by simp, by simp [Segment.bytes]⟩
    | cons c rest =>
      have hl : (c :: rest).getLast? = some 0#8 := by simpa using h
      have hle := fewestStrings_le_count _ hl
      obtain ⟨k, rfl⟩ : ∃ j, k = j + 1 := ⟨k - 1, by omega⟩
      by_cases hb : b = 0#8
      · subst hb
        rw [List.count_cons_self] at hhi
        by_cases hc : c = 0#8
        · subst hc
          rw [fewestStrings_zero_zero] at hlo
          by_cases hfit : k + 1 ≤ (0#8 :: rest).count 0#8
          · exact (ih (k + 1) hl hlo hfit).cons_padding
          · exact (ih k hl (by omega) (by omega)).cons_empty
        · rw [fewestStrings_zero_byte c rest hc] at hlo
          exact (ih k hl (by omega) (by omega)).cons_empty
      · rw [fewestStrings_byte b c rest hb] at hlo
        rw [List.count_cons_of_ne hb] at hhi
        exact (ih (k + 1) hl hlo hhi).cons_byte hk hb

/-- R12: infoLayout is the layout of four strings, each followed by at least one 0x00 byte. -/
theorem infoLayout_iff (bytes : List Byte) : infoLayout bytes = true ↔ IsStrings 4 bytes := by
  simp only [infoLayout, Bool.and_eq_true, beq_iff_eq, decide_eq_true_eq]
  constructor
  · rintro ⟨⟨hl, hf⟩, hc⟩
    exact isStrings_of_counts bytes 4 hl hf hc
  · rintro ⟨gs, hlen, hgs, rfl⟩
    have hne : gs ≠ [] := by rintro rfl; simp at hlen
    refine ⟨⟨getLast_segments gs hne hgs, ?_⟩, hlen ▸ length_le_count_zero gs hgs⟩
    match gs, hne with
    | g :: gs, _ =>
      have hg := hgs g (by simp)
      have hr := nonzeroRuns_segments gs (fun x hx => hgs x (by simp [hx]))
      obtain ⟨n, hn⟩ : ∃ n, g.2 = n + 1 := ⟨g.2 - 1, by omega⟩
      rw [fewestStrings, List.flatMap_cons, nonzeroRuns_segment g _ hg]
      simp only [List.length_cons] at hlen
      by_cases hs : g.1 = []
      · simp [hs, Segment.bytes, hn, List.replicate_succ]; omega
      · obtain ⟨b, s, hbs⟩ := List.exists_cons_of_ne_nil hs
        have hb : b ≠ 0#8 := fun e => hg.1 (by simp [hbs, e])
        simp [hbs, Segment.bytes, hb]; omega

end Sys2Proof.Laws
end

