-- ==== Sys2Proof/Laws/PerInstr.lean ====
section
/-!
SUPPORT. What is proved of every instruction, one lemma per constructor. EncodeLength: an instruction's encoding has the
length that R70 and R72 give it, under every choice of the parameters.
-/

/-- R70, R72: the encoding of an instruction is as long as the table says. -/
def Sys2Proof.Laws.EncodeLength.Statement (i : Sys2Proof.Instr) : Prop :=
  ∀ p : Sys2Proof.Params, (Sys2Proof.encode p i).length = Sys2Proof.instrLength i

namespace Sys2Proof.Laws

theorem EncodeLength.info : EncodeLength.Statement .info := fun _ => rfl
theorem EncodeLength.packet : EncodeLength.Statement .packet := fun _ => rfl
theorem EncodeLength.getInfo : EncodeLength.Statement .getInfo := fun _ => rfl
theorem EncodeLength.setSpeed (khz : U16) : EncodeLength.Statement (.setSpeed khz) := fun _ => by
  simp [encode, instrLength]
theorem EncodeLength.setProgMode (m : Byte) : EncodeLength.Statement (.setProgMode m) := fun _ => rfl
theorem EncodeLength.setPinIoMode (pin dir : Byte) : EncodeLength.Statement (.setPinIoMode pin dir) := fun _ => rfl
theorem EncodeLength.setPinWrite (pin level : Byte) : EncodeLength.Statement (.setPinWrite pin level) := fun _ => rfl
theorem EncodeLength.setPinRead (pin : Byte) : EncodeLength.Statement (.setPinRead pin) := fun _ => rfl
theorem EncodeLength.send (pn : U32) (pv : U64) (dn : U32) (dv : U64) (en : U32) (ev : U64) (rd : U32) :
    EncodeLength.Statement (.send pn pv dn dv en ev rd) := fun _ => by
  simp [encode, instrLength]
theorem EncodeLength.xferInstruction (w : U32) : EncodeLength.Statement (.xferInstruction w) := fun _ => by
  simp [encode, instrLength]
theorem EncodeLength.getPeResponse : EncodeLength.Statement .getPeResponse := fun _ => rfl
theorem EncodeLength.unrecognisedByte (b : Byte) : EncodeLength.Statement (.unrecognisedByte b) := fun _ => rfl

end Sys2Proof.Laws
end

