-- ==== Sys2Proof/Tests/Slice0.lean ====
section
/-!
SUPPORT. The model's own tests: ill-formed terms that WellFormed refuses, words written out from the spec's encodings,
one step on the spec's vectors (95_test_vectors.md), and for every obligation with hypotheses a witness that meets them.
-/

open Sys2Proof Sys2Proof.Machine

namespace Sys2Proof.Tests

set_option Elab.async false

/-! ### Helpers -/

/-- The default parameters, with definite values for those that have no default. -/
def params : Params :=
  { defaultParams with infoTristate := {}, infoJtag := {}, infoIcsp := {}, peSettleTicks := 5, tickWidth := 32 }

/-- Reset, with definite parameters. -/
def start : State := { State.reset with cfg := params }

/-- The ring of size 256 that holds `bytes` from index 0 on. -/
def ringOf (bytes : List Byte) : Ring := { data := memWrite 256 [] 0 bytes, head := bytes.length, tail := 0 }

/-- A state whose cmdIn holds `bytes`. -/
def holding (bytes : List Byte) (s : State) : State := s.setCmdIn (ringOf bytes)

/-- A state in which the engine executes a checked packet of the stream `stream`, from its first byte. -/
def running (stream : List Byte) (s : State) : State :=
  (holding (stream ++ [checksumOf stream]) s).setPkt
    { type := .packet, status := .parsed, expectedLength := BitVec.ofNat 16 (stream.length + 1), currentPos := 0 }

/-- A state with the given answers of the pulse transport. -/
def answering (answers : List U64) (s : State) : State := s.setEnv { s.env with transportAnswers := answers }

/-- A state with the given level of the GPIO driver. -/
def level (lv : Nat) (s : State) : State := s.setEnv { s.env with gpioAnswers := [lv] }

/-- What a test looks at after a step: the history, cmdOut's content, the mode and currentPos. -/
def see (r : Result State) : Option (List Event × List Byte × TransportMode × U16) :=
  match r with
  | .next t => some (t.history, outContent t, t.transportMode, t.pkt.currentPos)
  | .fault _ => none
  | .refused _ => none

/-- PacketState and cmdIn's content after a step. -/
def seeIn (r : Result State) : Option (PacketState × List Byte) :=
  match r with
  | .next t => some (t.pkt, inContent t)
  | .fault _ => none
  | .refused _ => none

/-- Whether a step answers a next state. -/
def answers (r : Result State) : Bool :=
  match r with
  | .next _ => true
  | .fault _ => false
  | .refused _ => false

/-- The default parameters with SEND_LAYOUT = L32_32. -/
def wide : Params := { params with sendLayout := .l32x32 }

/-! ### WellFormed: one ill-formed term for each check -/

theorem test_wf_send_pn : WellFormed params (.send 256 0 0 0 0 0 0) = false := by decide
theorem test_wf_send_dn : WellFormed params (.send 0 0 256 0 0 0 0) = false := by decide
theorem test_wf_send_en : WellFormed params (.send 0 0 0 0 256 0 0) = false := by decide
theorem test_wf_send_rd : WellFormed params (.send 0 0 0 0 0 0 256) = false := by decide
theorem test_wf_send_pv : WellFormed wide (.send 0 0x100000000 0 0 0 0 0) = false := by decide
theorem test_wf_send_dv : WellFormed wide (.send 0 0 0 0x100000000 0 0 0) = false := by decide
theorem test_wf_send_ev : WellFormed wide (.send 0 0 0 0 0 0x100000000 0) = false := by decide
theorem test_wf_send_l8 : WellFormed params (.send 255 0xFFFFFFFFFFFFFFFF 255 0 255 0 255) = true := by decide
theorem test_wf_unrecognised_known : WellFormed params (.unrecognisedByte 0x09) = false := by decide
theorem test_wf_unrecognised : WellFormed params (.unrecognisedByte 0x0A) = true := by decide

/-! ### The info block's layout (R12, S1) -/

/-- S1: DeviceName, MCU, Mode and Rev, each NUL-terminated, then 0x00 bytes to 128. -/
theorem test_infoLayout_four :
    infoLayout ([0x44, 0x65, 0x76, 0x69, 0x63, 0x65, 0x4E, 0x61, 0x6D, 0x65, 0, 0x4D, 0x43, 0x55, 0, 0x4D, 0x6F, 0x64, 0x65,
      0, 0x52, 0x65, 0x76] ++ List.replicate 105 0) = true := by decide +kernel
/-- An empty string and four more are five. -/
theorem test_infoLayout_five :
    infoLayout ([0, 0x41, 0, 0x42, 0, 0x43, 0, 0x44] ++ List.replicate 120 0) = false := by decide +kernel

/-! ### Decoding: words written out from R64, R65, R78 and R90 -/

/-- V17. -/
theorem test_decode_getInfo : decode params [0x01] = .unit .getInfo [] := by decide
/-- V18: 02 E8 03 is SET_SPEED 1000. -/
theorem test_decode_setSpeed : decode params [0x02, 0xE8, 0x03] = .unit (.setSpeed 1000) [] := by decide
/-- V20: the mode byte is followed by the next opcode. -/
theorem test_decode_setProgMode : decode params [0x03, 0x02, 0x09] = .unit (.setProgMode 0x02) [0x09] := by decide
/-- V22. -/
theorem test_decode_setPinIoMode : decode params [0x04, 0x04, 0x01] = .unit (.setPinIoMode 0x04 0x01) [] := by decide
/-- V25. -/
theorem test_decode_setPinWrite : decode params [0x05, 0x04, 0x00] = .unit (.setPinWrite 0x04 0x00) [] := by decide
/-- S3. -/
theorem test_decode_setPinRead : decode params [0x06, 0x03] = .unit (.setPinRead 0x03) [] := by decide
/-- V33, SEND_LAYOUT = L8_64. -/
theorem test_decode_send_l8 :
    decode params
      [0x07, 0x04, 0x03, 0, 0, 0, 0, 0, 0, 0, 0x05, 0x01, 0, 0, 0, 0, 0, 0, 0, 0x02, 0x01, 0, 0, 0, 0, 0, 0, 0, 0x01] =
      .unit (.send 4 0x3 5 0x01 2 0x1 1) [] := by decide
/-- V36, SEND_LAYOUT = L32_32. -/
theorem test_decode_send_l32 :
    decode wide
      [0x07, 0x04, 0, 0, 0, 0x03, 0, 0, 0, 0x05, 0, 0, 0, 0x01, 0, 0, 0, 0x02, 0, 0, 0, 0x01, 0, 0, 0, 0x01, 0, 0, 0] =
      .unit (.send 4 0x3 5 0x01 2 0x1 1) [] := by decide
/-- S4: 08 20 FF 04 3C is XFER_INSTRUCTION 0x3C04FF20. -/
theorem test_decode_xferInstruction :
    decode params [0x08, 0x20, 0xFF, 0x04, 0x3C] = .unit (.xferInstruction 0x3C04FF20) [] := by decide
/-- V49. -/
theorem test_decode_getPeResponse : decode params [0x09] = .unit .getPeResponse [] := by decide
/-- V30. -/
theorem test_decode_unrecognised : decode params [0xEE, 0x01] = .unit (.unrecognisedByte 0xEE) [0x01] := by decide
/-- V31: 2 of 4 operand bytes. -/
theorem test_decode_truncated : decode params [0x08, 0x11, 0x22] = .truncated .xferInstruction := by decide
/-- R64: 'i'. -/
theorem test_decode_info : decodeMarker params 0x69 = some .info := by decide
/-- R65: 'p'. -/
theorem test_decode_packet : decodeMarker params 0x70 = some .packet := by decide
/-- R68: a stray byte. -/
theorem test_decode_stray : decodeMarker params 0x41 = none := by decide
/-- V34: the frame of a SEND alone. -/
theorem test_frame_send :
    encodePacket params (encode params (.send 4 0x3 5 0x01 2 0x1 1)) =
      [0x70, 0x1E, 0x00, 0x07, 0x04, 0x03, 0, 0, 0, 0, 0, 0, 0, 0x05, 0x01, 0, 0, 0, 0, 0, 0, 0, 0x02, 0x01, 0, 0, 0, 0,
        0, 0, 0, 0x01, 0x18] := by decide
/-- P2: the frame notation, with a wrong checksum in the first packet. -/
theorem test_assemble :
    assemble params [.raw [0x41, 0x42], .info, .packet [.getInfo] (some 0x00) none,
      .packet [.setPinRead 0x03] none none] =
      [0x41, 0x42, 0x69, 0x70, 0x02, 0x00, 0x01, 0x00, 0x70, 0x03, 0x00, 0x06, 0x03, 0x09] := by decide
theorem test_table_marker : decodeTableWord 8 0x69 = some .info := by decide +kernel
theorem test_table_operands : decodeTableWord 8 0x02 = some (.setSpeed 0) := by decide +kernel
theorem test_table_unrecognised : decodeTableWord 8 0x00 = some (.unrecognisedByte 0x00) := by decide +kernel

/-! ### The instruction placed by withFetchWord is the first that runs -/

theorem test_fetch_markers :
    answers (step (State.reset.withFetchWord 8 0x69)) = true ∧
      (seeIn (step (State.reset.withFetchWord 8 0x70))).isSome = true := by decide +kernel
theorem test_fetch_getInfo : answers (step (State.reset.withFetchWord 8 0x01)) = true := by decide +kernel
theorem test_fetch_setProgMode :
    see (step (State.reset.withFetchWord 16 0x0103)) = some ([], [], .jtag, 2) := by decide +kernel
theorem test_fetch_getPeResponse : answers (step (State.reset.withFetchWord 8 0x09)) = true := by decide +kernel

/-! ### Ring buffers -/

/-- V1's ring: N = 8, head = tail = 6. -/
def ring8 : Ring := { data := [], head := 6, tail := 6 }

/-- V1: the bytes and the head after the push across the wrap. -/
theorem test_push_wraps :
    (ring8.push 8 [0xA, 0xB, 0xC, 0xD]).map (fun b => (b.head, b.data, b.occupied 8, b.spaceLeft 8)) =
      some (2, [(0, 0xC), (1, 0xD), (6, 0xA), (7, 0xB)], 4, 3) := by decide
/-- V2: a fourth byte more than fits. -/
theorem test_push_overflows : (ring8.push 8 [0xA, 0xB, 0xC, 0xD, 1, 2, 3, 4]) = none := by decide
/-- V3: Pop(3) then what is left. -/
theorem test_pop_wraps :
    (match (ring8.pushed 8 [0xA, 0xB, 0xC, 0xD]).pop .cmdIn 8 3 with
      | .next (bytes, b) => some (bytes, b.tail, b.content 8)
      | .fault _ => none
      | .refused _ => none) = some ([0xA, 0xB, 0xC], 1, [0xD]) := by decide

/-! ### The framer -/

/-- S1, P2: SCAN-INFO pops 41 42 69. -/
theorem test_info :
    seeIn (step (holding [0x41, 0x42, 0x69, 0x70] start)) =
      some ({ type := .info, status := .ok, expectedLength := 0, currentPos := 0 }, [0x70]) := by decide +kernel
/-- S1: INFO-REPLY, 128 bytes. -/
theorem test_info_reply :
    (see (step (start.setPkt { PacketState.reset with type := .info }))).map (fun v => v.2.1.length) = some 128 := by
  decide +kernel
/-- R95's example. -/
theorem test_packet :
    seeIn (step (holding [0x41, 0x70, 0x02, 0x00, 0x01, 0x01] start)) =
      some ({ type := .packet, status := .ok, expectedLength := 0, currentPos := 0 }, [0x02, 0x00, 0x01, 0x01]) := by
  decide +kernel
/-- R99's example. -/
theorem test_length :
    seeIn (step ((holding [0x02, 0x00, 0x01, 0x01] start).setPkt { PacketState.reset with type := .packet })) =
      some ({ type := .packet, status := .ok, expectedLength := 2, currentPos := 0 }, [0x01, 0x01]) := by decide +kernel
/-- V8: a bad checksum: the packet is discarded, the status is Error. -/
theorem test_bad_checksum :
    seeIn (step ((holding [0x06, 0x03, 0x0A] start).setPkt
      { type := .packet, status := .ok, expectedLength := 3, currentPos := 0 })) =
      some ({ type := .empty, status := .error, expectedLength := 0, currentPos := 0 }, []) := by decide +kernel
/-- V16: the checksum wraps. -/
theorem test_checksum_wraps : checksumOf [0x80, 0x80] = 0x00 := by decide

/-! ### The opcodes, on the vectors of 95_test_vectors.md -/

/-- V17: with N_CMDOUT = 128 the block is dropped. -/
theorem test_getInfo_drops :
    see (step (running [0x01] { start with cfg := { params with cmdOutLog := 7 } })) =
      some ([.outcome (.responseDropped 128)], [], .tristate, 1) := by decide +kernel
/-- V18. -/
theorem test_setSpeed : see (step (running [0x02, 0xE8, 0x03] start)) = some ([], [], .tristate, 3) := by decide +kernel
/-- V19. -/
theorem test_setProgMode : see (step (running [0x03, 0x01] start)) = some ([], [], .jtag, 2) := by decide +kernel
/-- V21. -/
theorem test_setProgMode_invalid :
    see (step (running [0x03, 0x07] start)) =
      some ([.outcome (.invalidOperand .setProgMode [0x07])], [], .tristate, 2) := by decide +kernel
/-- V22. -/
theorem test_setPinIoMode :
    see (step (running [0x04, 0x04, 0x01] start)) = some ([.gpioSetup .mclr .output], [], .tristate, 3) := by
  decide +kernel
/-- V24. -/
theorem test_setPinIoMode_invalid :
    see (step (running [0x04, 0x04, 0x02] start)) =
      some ([.outcome (.invalidOperand .setPinIoMode [0x04, 0x02])], [], .tristate, 3) := by decide +kernel
/-- V25. -/
theorem test_setPinWrite_low :
    see (step (running [0x05, 0x04, 0x00] start)) = some ([.gpioSet .mclr .low], [], .tristate, 3) := by decide +kernel
/-- V26. -/
theorem test_setPinWrite_high :
    see (step (running [0x05, 0x04, 0x02] start)) = some ([.gpioSet .mclr .high], [], .tristate, 3) := by decide +kernel
/-- V27: the level 7 is normalised. -/
theorem test_setPinRead :
    see (step (running [0x06, 0x03] (level 7 start))) =
      some ([.gpioGet .tdo 7], [0x01, 0x00, 0x00, 0x00], .tristate, 2) := by decide +kernel
/-- V28. -/
theorem test_setPinRead_invalid :
    see (step (running [0x06, 0x09] start)) =
      some ([.outcome (.invalidOperand .setPinRead [0x09])], [0x00, 0x00, 0x00, 0x00], .tristate, 2) := by decide +kernel
/-- V33. -/
theorem test_send_jtag :
    see (exec (.send 4 0x3 5 0x01 2 0x1 1) (answering [0x0A0B0C0D] (start.setMode .jtag))) =
      some ([.sendJTAG { pn := 4, pv := 0x3, dn := 5, dv := 0x01, en := 2, ev := 0x1 } 0x0A0B0C0D],
        [0x0D, 0x0C, 0x0B, 0x0A, 0, 0, 0, 0], .jtag, 29) := by decide +kernel
/-- V34: Tristate, no call. -/
theorem test_send_tristate :
    see (exec (.send 4 0x3 5 0x01 2 0x1 1) start) = some ([], [0, 0, 0, 0, 0, 0, 0, 0], .tristate, 29) := by decide +kernel
/-- P1, V45: ready at attempt 2. -/
theorem test_xfer_ready :
    see (step (running [0x08, 0x20, 0xFF, 0x04, 0x3C] (answering [0, 0, 0x8000, 0, 0, 0, 0] (start.setMode .jtag)))) =
      some ([.sendJTAG { pn := 4, pv := 0x3, dn := 5, dv := 0x0A, en := 2, ev := 0x1 } 0,
          .sendJTAG { pn := 3, pv := 0x1, dn := 32, dv := 0x0004C000, en := 2, ev := 0x1 } 0,
          .sendJTAG { pn := 3, pv := 0x1, dn := 32, dv := 0x0004C000, en := 2, ev := 0x1 } 0x8000,
          .sendJTAG { pn := 4, pv := 0x3, dn := 5, dv := 0x09, en := 2, ev := 0x1 } 0,
          .sendJTAG { pn := 3, pv := 0x1, dn := 32, dv := 0x3C04FF20, en := 2, ev := 0x1 } 0,
          .sendJTAG { pn := 4, pv := 0x3, dn := 5, dv := 0x0A, en := 2, ev := 0x1 } 0,
          .sendJTAG { pn := 3, pv := 0x1, dn := 32, dv := 0x0000C000, en := 2, ev := 0x1 } 0],
        [0, 0, 0, 0, 0, 0, 0, 0], .jtag, 5) := by decide +kernel
/-- S4, V47: the fail sentinel after exactly 40 attempts: 41 calls and one outcome. -/
theorem test_xfer_times_out :
    (see (step (running [0x08, 0x20, 0xFF, 0x04, 0x3C] (answering (List.replicate 41 0) (start.setMode .jtag))))).map
      (fun v => (v.1.countP isTransportEvent, v.1.length, v.1.getLast?, v.2.1)) =
      some (41, 42, some (.outcome (.pollTimeout .xferInstruction)), [0xFF, 0xFF, 0xFF, 0xFF, 0, 0, 0, 0]) := by
  decide +kernel
/-- V52: only bits 31..0 of the PE response are kept; V49's other answers. -/
theorem test_pe_response :
    (see (step (running [0x09] (answering [0, 0x40000, 0, 0xABCD000012345678, 0] (start.setMode .jtag))))).map
      (fun v => (v.1.head?, v.1.length, v.2.1)) =
      some (some (.delay 5), 7, [0x78, 0x56, 0x34, 0x12, 0, 0, 0, 0]) := by
  decide +kernel
/-- P3: Tristate: one Delay, no transport call, the sentinel. -/
theorem test_pe_tristate :
    see (step (running [0x09] start)) =
      some ([.delay 5, .outcome (.pollTimeout .getPeResponse)], [0xFF, 0xFF, 0xFF, 0xFF, 0, 0, 0, 0], .tristate, 1) := by
  decide +kernel
/-- V30. -/
theorem test_unrecognised :
    see (step (running [0xEE, 0x01] start)) = some ([.outcome (.unknownOpcode 0xEE)], [], .tristate, 1) := by
  decide +kernel
/-- V31: the scan ends at L = 3. -/
theorem test_truncated :
    see (step (running [0x08, 0x11, 0x22] start)) =
      some ([.outcome (.truncatedOpcode .xferInstruction)], [], .tristate, 3) := by decide +kernel
/-- V4: drainOutbound of at most 10 bytes answers the two that are left. -/
theorem test_drain :
    (match drainOutbound 10 (start.setCmdOut (ringOf [0x01, 0x02])) with
      | .next t => some (t.env.drained, outContent t)
      | .fault _ => none
      | .refused _ => none) = some ([0x01, 0x02], []) := by decide +kernel
/-- V5: 8 bytes do not fit a cmdIn of size 8; 7 do. -/
theorem test_push_inbound :
    (pushInbound (List.replicate 8 0x41) { start with cfg := { params with cmdInLog := 3 } }).history =
        [.outcome (.inboundOverflow 8)] ∧
      inContent (pushInbound (List.replicate 7 0x41) { start with cfg := { params with cmdInLog := 3 } }) =
        List.replicate 7 0x41 := by decide +kernel

/-! ### Witnesses: for each obligation with hypotheses, a state and operands that meet them all -/

theorem exists_next {r : Result State} (h : answers r = true) : ∃ t, r = .next t := by
  cases r with
  | next t => exact ⟨t, rfl⟩
  | fault _ => cases h
  | refused _ => cases h

/-- V1's ring after its push: 4 bytes across the wrap, room for 3. -/
def ring4 : Ring := ring8.pushed 8 [0xA, 0xB, 0xC, 0xD]

/-- A packet with the stream `stream` and the checksum byte `c`, waiting for its check. -/
def checking (stream : List Byte) (c : Byte) (s : State) : State :=
  (holding (stream ++ [c]) s).setPkt
    { type := .packet, status := .ok, expectedLength := BitVec.ofNat 16 (stream.length + 1), currentPos := 0 }

/-- A packet that begins, its length field `lo hi` in cmdIn. -/
def lengthDue (bytes : List Byte) (s : State) : State :=
  (holding bytes s).setPkt { PacketState.reset with type := .packet }

/-- JTAG mode with definite answers of the pulse transport. -/
def jtag (xs : List U64) : State := answering xs (start.setMode .jtag)

theorem witness_StepKeepsInvariant : Inv (running [0x01] start) ∧ ∃ t, step (running [0x01] start) = .next t :=
  ⟨by decide +kernel, exists_next (by decide +kernel)⟩

theorem witness_StepNeverStops : Inv start := by decide +kernel

/-- Both stops: a state outside R24, and a packet whose bytes are not in cmdIn. -/
theorem witness_OnlyTwoReasonsToStop :
    (∃ f, step (start.setPkt { type := .packet, status := .parsed, expectedLength := 2, currentPos := 0 }) = .fault f) ∧
      ∃ r, step (start.setPkt { PacketState.reset with status := .overflow }) = .refused r := by
  refine ⟨⟨.ringUnderflow .cmdIn 1, ?_⟩, ⟨.unreachablePacketState, ?_⟩⟩ <;> rfl

theorem witness_OccupiedAndSpaceLeft : ring4.head < 2 ^ 3 ∧ ring4.tail < 2 ^ 3 := by decide

/-- The room is 3: exactly full, and one byte more. -/
theorem witness_PushIsAllOrNothing :
    ring4.Wf (2 ^ 3) ∧ [1, 2, 3].length ≤ ring4.spaceLeft (2 ^ 3) ∧ ring4.spaceLeft (2 ^ 3) < [1, 2, 3, 4].length := by
  decide

/-- Four bytes are held: all of them, and one more. -/
theorem witness_PopTakesOldestOrUnderflows :
    ring4.Wf (2 ^ 3) ∧ 4 ≤ ring4.occupied (2 ^ 3) ∧ ring4.occupied (2 ^ 3) < 5 := by decide

theorem witness_PeekReadsContentOrUnderflows :
    1 + 3 ≤ ring4.occupied (2 ^ 3) ∧ ring4.occupied (2 ^ 3) < 1 + 4 := by decide

theorem witness_RingFifoLaw :
    ring8.Wf (2 ^ 3) ∧ ring8.content (2 ^ 3) = [] ∧
      (runRing (2 ^ 3) [.push [1, 2, 3], .pop 2, .push (List.replicate 7 9), .push [4]] ring8).map
        (fun r => (r.1, r.2.1)) = some ([1, 2], [1, 2, 3, 4]) := by decide

theorem witness_StepIsTheNextAgentsMove :
    start.env.schedule = [] ∧
      (start.setEnv { start.env with schedule := [.engine] }).env.schedule = .engine :: [] ∧
      (start.setEnv { start.env with schedule := [.pushInbound [0x69]] }).env.schedule = .pushInbound [0x69] :: [] ∧
      (start.setEnv { start.env with schedule := [.drainOutbound 4] }).env.schedule = .drainOutbound 4 :: [] :=
  ⟨rfl, rfl, rfl, rfl⟩

/-- V5: 7 bytes fit, 8 do not. -/
theorem witness_PushInboundAppendsOrOverflows :
    let s := { start with cfg := { params with cmdInLog := 3 } }
    s.cmdIn.Wf s.cfg.nCmdIn ∧ (List.replicate 7 (0x41 : Byte)).length ≤ s.cmdIn.spaceLeft s.cfg.nCmdIn ∧
      s.cmdIn.spaceLeft s.cfg.nCmdIn < (List.replicate 8 (0x41 : Byte)).length := by decide

theorem witness_DrainOutboundReturnsOldest :
    let s := start.setCmdOut (ringOf [1, 0, 0, 0])
    s.cmdOut.Wf s.cfg.nCmdOut := by decide +kernel

theorem witness_OutputIsNeverLostOrReordered :
    let s := (start.setCmdOut (ringOf [1, 0])).setEnv { start.env with schedule := [.drainOutbound 1] }
    Inv s ∧ ∃ t, step s = .next t := ⟨by decide +kernel, exists_next (by decide +kernel)⟩

theorem witness_ArrivalCommutesWithEngine :
    let s := running [0x06, 0x03] (level 1 start)
    Inv s ∧ suspended s = false ∧ (List.replicate 252 (0x70 : Byte)).length ≤ s.cmdIn.spaceLeft s.cfg.nCmdIn ∧
      ∃ t, engineStep s = .next t :=
  ⟨by decide +kernel, by decide +kernel, by decide +kernel, exists_next (by decide +kernel)⟩

/-- V14: cmdIn of size 8, full of stray bytes. -/
theorem witness_StrayBytesSuspend :
    let s := holding (List.replicate 7 0x41) { start with cfg := { params with cmdInLog := 3 } }
    phaseOf s.pkt = some .idle ∧ (∀ b ∈ inContent s, b ≠ s.cfg.markPacket ∧ b ≠ s.cfg.markInfo) ∧
      inCount s = s.cfg.nCmdIn - 1 ∧ ([0x70] : List Byte) ≠ [] := by decide +kernel

theorem witness_PacketMarkerBeginsPacket :
    let s := holding [0x41, 0x70, 0x02] start
    s.cmdIn.Wf s.cfg.nCmdIn ∧ phaseOf s.pkt = some .idle ∧
      (∀ b ∈ [(0x41 : Byte)], b ≠ s.cfg.markPacket ∧ b ≠ s.cfg.markInfo) ∧
      inContent s = [0x41] ++ s.cfg.markPacket :: [0x02] := by decide +kernel

theorem witness_InfoMarkerMakesReplyDue :
    let s := holding [0x41, 0x69, 0x70] start
    s.cmdIn.Wf s.cfg.nCmdIn ∧ s.cfg.markPacket ≠ s.cfg.markInfo ∧ phaseOf s.pkt = some .idle ∧
      (∀ b ∈ [(0x41 : Byte)], b ≠ s.cfg.markPacket ∧ b ≠ s.cfg.markInfo) ∧
      inContent s = [0x41] ++ s.cfg.markInfo :: [0x70] := by decide +kernel

theorem witness_InfoReplyIsPushed :
    let s := start.setPkt { PacketState.reset with type := .info }
    s.cmdOut.Wf s.cfg.nCmdOut ∧ phaseOf s.pkt = some .infoDue := by decide +kernel

theorem witness_TooFewBytesSuspend :
    (phaseOf (lengthDue [0x02] start).pkt = some .awaitLength ∧ inCount (lengthDue [0x02] start) < 2) ∧
      phaseOf ((lengthDue [0x06, 0x03] start).setPkt
        { type := .packet, status := .ok, expectedLength := 3, currentPos := 0 }).pkt = some .awaitBody ∧
      inCount ((lengthDue [0x06, 0x03] start).setPkt
        { type := .packet, status := .ok, expectedLength := 3, currentPos := 0 }) < 3 := by decide +kernel

/-- V10: a length field of 0, then the largest one. -/
theorem witness_LengthFieldIsRead :
    ((lengthDue [0, 0, 2, 0] start).cmdIn.Wf (lengthDue [0, 0, 2, 0] start).cfg.nCmdIn ∧
      phaseOf (lengthDue [0, 0, 2, 0] start).pkt = some .awaitLength ∧
      inContent (lengthDue [0, 0, 2, 0] start) = 0 :: 0 :: [2, 0]) ∧
    ((lengthDue [0xFF, 0xFF] start).cmdIn.Wf (lengthDue [0xFF, 0xFF] start).cfg.nCmdIn ∧
      phaseOf (lengthDue [0xFF, 0xFF] start).pkt = some .awaitLength ∧
      inContent (lengthDue [0xFF, 0xFF] start) = 0xFF :: 0xFF :: []) := by decide +kernel

/-- V9: the empty stream. -/
theorem witness_MatchingChecksumAccepts :
    let s := checking [] 0x00 start
    phaseOf s.pkt = some .awaitBody ∧ inContent s = [] ++ checksumOf [] :: [] ∧
      ([] : List Byte).length + 1 = s.pkt.expectedLength.toNat := by decide +kernel

/-- V8. -/
theorem witness_WrongChecksumDiscards :
    let s := checking [0x06, 0x03] 0x0A start
    s.cmdIn.Wf s.cfg.nCmdIn ∧ phaseOf s.pkt = some .awaitBody ∧ inContent s = [0x06, 0x03] ++ 0x0A :: [] ∧
      [(0x06 : Byte), 0x03].length + 1 = s.pkt.expectedLength.toNat ∧ (0x0A : Byte) ≠ checksumOf [0x06, 0x03] := by
  decide +kernel

theorem witness_ChecksumDetectsBitFlip : (0 : Nat) < 8 ∧ (7 : Nat) < 8 := by decide

/-- V9: the empty stream is retired at once. -/
theorem witness_FinishedPacketRetires :
    let s := running [] start
    s.cmdIn.Wf s.cfg.nCmdIn ∧ phaseOf s.pkt = some .executing ∧ streamLength s.pkt ≤ s.pkt.currentPos.toNat ∧
      s.pkt.expectedLength.toNat ≤ inCount s := by decide +kernel

/-- V15: N_CMDIN = 8 and E = 8. -/
theorem witness_OversizePacketNeverAccepted :
    let s := ({ start with cfg := { params with cmdInLog := 3 } } : State).setPkt
      { type := .packet, status := .ok, expectedLength := 8, currentPos := 0 }
    phaseOf s.pkt = some .awaitBody ∧ s.cfg.nCmdIn - 1 < s.pkt.expectedLength.toNat := by decide +kernel

/-- V7, with a byte behind the frame. -/
theorem witness_ValidFrameReachesExecutor :
    let s := holding [0x41, 0x42, 0x70, 0x02, 0x00, 0x01, 0x01, 0x69] start
    s.cmdIn.Wf s.cfg.nCmdIn ∧ s.env.schedule = [] ∧ phaseOf s.pkt = some .idle ∧
      (∀ b ∈ [(0x41 : Byte), 0x42], b ≠ s.cfg.markPacket ∧ b ≠ s.cfg.markInfo) ∧
      [(0x01 : Byte)].length + 1 < 65536 ∧
      inContent s = [0x41, 0x42] ++ encodePacket s.cfg [0x01] ++ [0x69] := by decide +kernel

theorem witness_StepRunsDecodedInstruction :
    (nextMove (holding [0x41, 0x69] start) = .engine ∧ phaseOf (holding [0x41, 0x69] start).pkt = some .idle ∧
      firstMarker (holding [0x41, 0x69] start) = some .info) ∧
    (nextMove (running [0x03, 0x01] start) = .engine ∧ phaseOf (running [0x03, 0x01] start).pkt = some .executing ∧
      (running [0x03, 0x01] start).pkt.currentPos.toNat < streamLength (running [0x03, 0x01] start).pkt ∧
      (running [0x03, 0x01] start).pkt.expectedLength.toNat ≤ inCount (running [0x03, 0x01] start) ∧
      decode params (((inContent (running [0x03, 0x01] start)).drop 0).take 2) = .unit (.setProgMode 0x01) []) := by
  decide +kernel

/-- V31. -/
theorem witness_TruncatedOpcodeEndsScan :
    let s := running [0x08, 0x11, 0x22] start
    phaseOf s.pkt = some .executing ∧ s.pkt.currentPos.toNat < streamLength s.pkt ∧
      s.pkt.expectedLength.toNat ≤ inCount s ∧
      decode s.cfg (((inContent s).drop s.pkt.currentPos.toNat).take
        (streamLength s.pkt - s.pkt.currentPos.toNat)) = .truncated .xferInstruction := by decide +kernel

theorem witness_CurrentPosMovesForward :
    let s := running [0xEE] start
    Inv s ∧ phaseOf s.pkt = some .executing ∧ s.pkt.currentPos.toNat < streamLength s.pkt ∧ ∃ t, engineStep s = .next t :=
  ⟨by decide +kernel, by decide +kernel, by decide +kernel, exists_next (by decide +kernel)⟩

theorem witness_PacketExecutionEnds :
    let s := running [0xEE, 0x01] start
    Inv s ∧ s.env.schedule = [] ∧ phaseOf s.pkt = some .executing := by decide +kernel

/-- The hypothesis of the statements on GET_INFO and SEND. -/
theorem witness_GetInfoAnswersInfoBlock : start.cmdOut.Wf start.cfg.nCmdOut := by decide +kernel
theorem witness_SendMakesOneRawCall : (jtag [0x0A0B0C0D]).cmdOut.Wf (jtag [0x0A0B0C0D]).cfg.nCmdOut := by decide +kernel

theorem witness_SetProgModeSelectsMode :
    start.cfg.Wf ∧ (0x02 : Byte) = modeCode start.cfg .icsp ∧ ∀ x, (0x03 : Byte) ≠ modeCode start.cfg x :=
  ⟨by decide +kernel, rfl, fun x => by cases x <;> decide⟩

theorem witness_SetPinIoModeEmitsSetup :
    start.cfg.Wf ∧ ((0x04 : Byte) = pinCode start.cfg .mclr ∧ (0x01 : Byte) = dirCode start.cfg .output) ∧
      (∀ p, (0x05 : Byte) ≠ pinCode start.cfg p) ∧ ∀ d, (0x02 : Byte) ≠ dirCode start.cfg d :=
  ⟨by decide +kernel, ⟨rfl, rfl⟩, fun p => by cases p <;> decide, fun d => by cases d <;> decide⟩

theorem witness_SetPinWriteDrivesPin :
    start.cfg.Wf ∧ (0x04 : Byte) = pinCode start.cfg .mclr ∧ ∀ p, (0x05 : Byte) ≠ pinCode start.cfg p :=
  ⟨by decide +kernel, rfl, fun p => by cases p <;> decide⟩

theorem witness_SetPinReadAnswersLevel :
    start.cfg.Wf ∧ start.cmdOut.Wf start.cfg.nCmdOut ∧ (0x03 : Byte) = pinCode start.cfg .tdo ∧
      ∀ p, (0x09 : Byte) ≠ pinCode start.cfg p :=
  ⟨by decide +kernel, by decide +kernel, rfl, fun p => by cases p <;> decide⟩

/-- V38 to V40: ETAP_CONTROL in each mode. -/
theorem witness_SendCommandMakesOneCall :
    familyOf params .etapControl = some .etap ∧
      ({ pn := 4, pv := 0x3, dn := 5, dv := 0x0A, en := 2, ev := 0x1 } : TransportCall) =
        { pn := (hdrCmd params .etap).nbits, pv := (hdrCmd params .etap).value, dn := 5,
          dv := (codeOf params .etapControl).setWidth 64,
          en := (ftrCmd params .etap).nbits, ev := (ftrCmd params .etap).value } ∧
      (start.setMode .jtag).transportMode = .jtag ∧ (start.setMode .icsp).transportMode = .icsp ∧
      start.transportMode = .tristate := by decide +kernel

/-- V41 to V43. -/
theorem witness_XferDataReturnsCaptureIfRead :
    ({ pn := 3, pv := 0x1, dn := 32, dv := 0x0004C000, en := 2, ev := 0x1 } : TransportCall) =
        { pn := params.hdrData.nbits, pv := params.hdrData.value, dn := 32, dv := 0x0004C000,
          en := params.ftrData.nbits, ev := params.ftrData.value } ∧
      (start.setMode .jtag).transportMode = .jtag ∧ (start.setMode .icsp).transportMode = .icsp ∧
      start.transportMode = .tristate := by decide +kernel

/-- A poll that times out, and polls that read ready at the first and at the last attempt. -/
theorem witness_PollMakesOneToFortyAttempts :
    (pollReady 15 (jtag (List.replicate 40 0))).1 = none ∧ (pollReady 15 (jtag [0x8000])).1 = some 1 ∧
      (pollReady 15 (jtag (List.replicate 39 0 ++ [0x8000]))).1 = some 40 := by decide +kernel

theorem not_ready_of {s : State} {bit n : Nat} (h : ∀ j < n, (callAnswer s j).getLsbD bit = false) :
    ∀ j, 1 ≤ j → j < n → ¬ attemptReady s bit j := fun j _ hj => by
  unfold attemptReady
  simp [h j hj]

/-- V46: ready at the last attempt; P1: ready at attempt 2. -/
theorem witness_XferInstructionShiftsWordWhenReady :
    (let s := jtag (List.replicate 40 0 ++ [0x8000])
     s.cmdOut.Wf s.cfg.nCmdOut ∧ 1 ≤ 40 ∧ 40 ≤ 40 ∧ (∀ j, 1 ≤ j → j < 40 → ¬ attemptReady s s.cfg.probenBit j) ∧
       attemptReady s s.cfg.probenBit 40) ∧
    (let s := jtag [0, 0x8000]
     s.cmdOut.Wf s.cfg.nCmdOut ∧ 1 ≤ 1 ∧ 1 ≤ 40 ∧ (∀ j, 1 ≤ j → j < 1 → ¬ attemptReady s s.cfg.probenBit j) ∧
       attemptReady s s.cfg.probenBit 1) :=
  ⟨⟨by decide +kernel, by decide, by decide, not_ready_of (by decide +kernel), by unfold attemptReady; decide +kernel⟩,
    ⟨by decide +kernel, by decide, by decide, not_ready_of (by decide +kernel), by unfold attemptReady; decide +kernel⟩⟩

/-- S4. -/
theorem witness_XferInstructionTimesOut :
    let s := jtag (List.replicate 41 0)
    s.cmdOut.Wf s.cfg.nCmdOut ∧ ∀ j, 1 ≤ j → j ≤ 40 → ¬ attemptReady s s.cfg.probenBit j :=
  ⟨by decide +kernel, fun j h1 h2 => not_ready_of (n := 41) (by decide +kernel) j h1 (by omega)⟩

/-- V49. -/
theorem witness_GetPeResponseAnswersWhenReady :
    (let s := jtag (List.replicate 40 0 ++ [0x40000])
     s.cmdOut.Wf s.cfg.nCmdOut ∧ 1 ≤ 40 ∧ 40 ≤ 40 ∧ (∀ j, 1 ≤ j → j < 40 → ¬ attemptReady s s.cfg.praccBit j) ∧
       attemptReady s s.cfg.praccBit 40) ∧
    (let s := jtag [0, 0x40000, 0, 0x12345678, 0]
     s.cmdOut.Wf s.cfg.nCmdOut ∧ 1 ≤ 1 ∧ 1 ≤ 40 ∧ (∀ j, 1 ≤ j → j < 1 → ¬ attemptReady s s.cfg.praccBit j) ∧
       attemptReady s s.cfg.praccBit 1) :=
  ⟨⟨by decide +kernel, by decide, by decide, not_ready_of (by decide +kernel), by unfold attemptReady; decide +kernel⟩,
    ⟨by decide +kernel, by decide, by decide, not_ready_of (by decide +kernel), by unfold attemptReady; decide +kernel⟩⟩

/-- V50: PROBEN set, PRACC clear. -/
theorem witness_GetPeResponseTimesOut :
    let s := jtag (List.replicate 41 0x8000)
    s.cmdOut.Wf s.cfg.nCmdOut ∧ ∀ j, 1 ≤ j → j ≤ 40 → ¬ attemptReady s s.cfg.praccBit j :=
  ⟨by decide +kernel, fun j h1 h2 => not_ready_of (n := 41) (by decide +kernel) j h1 (by omega)⟩

/-- P3, V53. -/
theorem witness_TristatePollsTimeOutSilently :
    start.cmdOut.Wf start.cfg.nCmdOut ∧ start.transportMode = .tristate ∧
      start.cfg.tristateCapture.getLsbD start.cfg.probenBit = false ∧
      start.cfg.tristateCapture.getLsbD start.cfg.praccBit = false := by decide +kernel

theorem witness_JtagAndIcspMakeSameCalls :
    drivesTransport (.xferInstruction 0x3C04FF20) = true ∧ (jtag []).transportMode = .jtag := by decide

theorem witness_TransportCallsAreBounded : ∃ t, exec .getPeResponse (jtag (List.replicate 41 0)) = .next t :=
  exists_next (by decide +kernel)

theorem witness_StreamUnitFrame :
    (Instr.setProgMode 0x01).isStreamUnit = true ∧ ∃ t, exec (.setProgMode 0x01) start = .next t :=
  ⟨rfl, exists_next (by decide +kernel)⟩

theorem witness_UnitsWithoutResponseLeaveOutput :
    ((Instr.setPinWrite 4 1).isStreamUnit = true ∧ responseBytes (.setPinWrite 4 1) = 0 ∧
      ∃ t, exec (.setPinWrite 4 1) start = .next t) ∧
    ((Instr.send 0 0 0 0 0 0 0).isStreamUnit = true ∧ responseBytes (.send 0 0 0 0 0 0 0) = 0 ∧
      ∃ t, exec (.send 0 0 0 0 0 0 0) (jtag [1]) = .next t) :=
  ⟨⟨rfl, rfl, exists_next (by decide +kernel)⟩, ⟨rfl, rfl, exists_next (by decide +kernel)⟩⟩

theorem witness_MarkerFrame :
    (∃ t, exec .info (holding [0x69] start) = .next t) ∧ ∃ t, exec .packet (holding [0x70] start) = .next t :=
  ⟨exists_next (by decide +kernel), exists_next (by decide +kernel)⟩

theorem witness_OnlySetProgModeChangesMode :
    ∃ t, step (running [0x03, 0x01] start) = .next t ∧ t.transportMode ≠ (running [0x03, 0x01] start).transportMode := by
  refine ⟨_, rfl, ?_⟩
  decide +kernel

/-- The three changes of the status. -/
theorem witness_OnlyFramerWritesStatus :
    (seeIn (step (holding [0x70] (start.setPkt { PacketState.reset with status := .error })))).map (fun v => v.1.status) =
        some .ok ∧
      (seeIn (step (checking [] 0x00 start))).map (fun v => v.1.status) = some .parsed ∧
      (seeIn (step (checking [] 0x05 start))).map (fun v => v.1.status) = some .error := by decide +kernel

theorem witness_ParametersStayHistoryGrows : ∃ t, step (running [0xEE] start) = .next t :=
  exists_next (by decide +kernel)

theorem witness_EngineConsumesInOrder :
    let s := holding [0x41, 0x70, 0x02] start
    s.cmdIn.Wf s.cfg.nCmdIn ∧ ∃ t, engineStep s = .next t := ⟨by decide +kernel, exists_next (by decide +kernel)⟩

theorem witness_DecodeEncodeRoundTrip :
    params.Wf ∧ WellFormed params (.send 255 0xFFFFFFFFFFFFFFFF 255 0 255 0 255) = true ∧
      (Instr.send 255 0xFFFFFFFFFFFFFFFF 255 0 255 0 255).isStreamUnit = true ∧
      WellFormed params .info = true ∧ Instr.info.isStreamUnit = false := by decide +kernel

theorem witness_EncodeDecodeRoundTrip : decode params [0x03, 0x02, 0x09] = .unit (.setProgMode 0x02) [0x09] := by decide

end Sys2Proof.Tests
end

section
/-!
PROOFS. The statements about the rings of 20_memory.md: Occupied and SpaceLeft (R40) and their bounds (R18).
-/

namespace Sys2Proof.Machine

/-- R18: a ring is empty exactly where head and tail meet. -/
theorem Ring.occupied_eq_zero_iff {k : Nat} {b : Ring} (hh : b.head < 2 ^ k) (ht : b.tail < 2 ^ k) :
    b.occupied (2 ^ k) = 0 ↔ b.head = b.tail := by
  constructor
  · intro hempty
    have hhead := Ring.mask_tail_add_occupied hh ht
    rw [hempty, Nat.add_zero, mask_of_lt ht] at hhead
    exact hhead.symm
  · intro hmeet
    exact Ring.occupied_of_head ht (Nat.two_pow_pos k) (by rw [Nat.add_zero, mask_of_lt ht, hmeet])

/-- Settles O6: the mask of a power of two is the remainder; the bounds are those of R18. -/
theorem occupiedAndSpaceLeft : Obligations.OccupiedAndSpaceLeft := by
  intro k b hh ht
  exact ⟨mask_two_pow k _, rfl, Ring.occupied_le k b, Ring.occupied_eq_zero_iff hh ht⟩

end Sys2Proof.Machine
end

section
/-!
PROOFS. The statement about the frame of 30_encoding.md: the checksum as a number (R67).
-/

namespace Sys2Proof.Machine

/-- Settles O24, by induction on the stream: each byte adds its number, and a byte addition wraps at 256. -/
theorem checksumIsByteSum : Obligations.ChecksumIsByteSum := by
  intro stream
  induction stream with
  | nil => rfl
  | cons c rest ih =>
    rw [checksumOf_cons, BitVec.toNat_add, ih, List.map_cons, List.sum_cons]
    exact Nat.add_mod_mod _ _ _

end Sys2Proof.Machine
end

section
/-!
PROOFS. The statements about the framer of 40_framer.md: where a transition is a suspend (R94, R98, R101), and the info
marker found at Idle (R96).
-/

namespace Sys2Proof.Machine

/-- R94, R98, R101: a suspend is no state change, whichever phase it is in. -/
theorem engineStep_of_suspended {s : State} (h : suspended s = true) : engineStep s = .next s := by
  unfold suspended at h
  unfold engineStep
  split at h
  next hp =>
    rw [Option.isNone_iff_eq_none] at h
    simp only [hp, idleStep, h]
  next hp => simp only [hp, if_pos (of_decide_eq_true h)]
  next hp => simp only [hp, if_pos (of_decide_eq_true h)]
  all_goals exact absurd h Bool.false_ne_true

theorem suspended_of_idle {s : State} (hp : phaseOf s.pkt = some .idle) (hm : firstMarker s = none) :
    suspended s = true := by
  simp [suspended, hp, hm]

theorem suspended_of_awaitLength {s : State} (hp : phaseOf s.pkt = some .awaitLength) (hn : inCount s < 2) :
    suspended s = true := by
  simp [suspended, hp, hn]

theorem suspended_of_awaitBody {s : State} (hp : phaseOf s.pkt = some .awaitBody)
    (hn : inCount s < s.pkt.expectedLength.toNat) : suspended s = true := by
  simp [suspended, hp, hn]

/-- R42: nothing fits in a full cmdIn. -/
theorem push_cmdIn_overflows_of_full {s : State} (hfull : inCount s = s.cfg.nCmdIn - 1) {bytes : List Byte}
    (hne : bytes ≠ []) : s.cmdIn.push s.cfg.nCmdIn bytes = none := by
  apply Ring.push_overflows
  have hspace : s.cmdIn.spaceLeft s.cfg.nCmdIn = 0 := Nat.sub_eq_zero_of_le hfull.ge
  rw [hspace]
  exact List.length_pos_of_ne_nil hne

/-- R93: at Idle the transition is the meaning of the first marker buffered. -/
theorem engineStep_of_firstMarker {s : State} {i : Instr} (hp : phaseOf s.pkt = some .idle)
    (hm : firstMarker s = some i) : engineStep s = exec i s := by
  simp only [engineStep, hp, idleStep, hm]

theorem decodeMarker_markInfo {p : Params} (h : p.markPacket ≠ p.markInfo) :
    decodeMarker p p.markInfo = some .info := by
  simp [decodeMarker, h.symm]

/-- R24: from Idle, the type Info alone makes the info reply due. -/
theorem phaseOf_info_of_idle {k : PacketState} (h : phaseOf k = some .idle) :
    phaseOf { k with type := .info } = some .infoDue := by
  obtain ⟨_, hstatus, hlength, hpos⟩ := phaseOf_idle h
  exact if_pos ⟨hstatus, hlength, hpos⟩

/-- R43: consuming the stray bytes and the marker behind them leaves what follows. -/
theorem inContent_consumed_past {s : State} {strays rest : List Byte} {m : Byte} (hw : s.cmdIn.Wf s.cfg.nCmdIn)
    (hc : inContent s = strays ++ m :: rest) : inContent (consumed (strays.length + 1) s) = rest := by
  have hle : strays.length + 1 ≤ inCount s := by
    rw [← inContent_length, hc, List.length_append, List.length_cons]
    omega
  calc inContent (consumed (strays.length + 1) s)
      = (inContent s).drop (strays.length + 1) := Ring.popped_content (k := s.cfg.cmdInLog) hw hle
    _ = rest := by rw [hc, List.append_cons]; exact List.drop_left' (by simp)

/-- Settles O20: in both phases the transition is a suspend. -/
theorem tooFewBytesSuspend : Obligations.TooFewBytesSuspend := fun _ =>
  ⟨fun hp hn => engineStep_of_suspended (suspended_of_awaitLength hp hn),
    fun hp hn => engineStep_of_suspended (suspended_of_awaitBody hp hn)⟩

/-- Settles O16: the scan finds no marker, so the transition is a suspend; a full cmdIn has no space left. -/
theorem strayBytesSuspend : Obligations.StrayBytesSuspend := fun _ hp hstray =>
  ⟨engineStep_of_suspended (suspended_of_idle hp (firstMarker_eq_none hstray)),
    fun hfull _ hne => push_cmdIn_overflows_of_full hfull hne⟩

/-- Settles O18: the scan finds the info marker behind the stray bytes, and its meaning consumes through it. -/
theorem infoMarkerMakesReplyDue : Obligations.InfoMarkerMakesReplyDue := by
  intro s strays rest hw hdistinct hp hstray hc
  have hmark := decodeMarker_markInfo hdistinct
  obtain ⟨hfirst, hcount⟩ := firstMarker_scan hstray (by rw [isMarker, hmark]; rfl) hc
  rw [hmark] at hfirst
  have hexec : exec .info s = .next ((consumed (strays.length + 1) s).setPkt { s.pkt with type := .info }) := by
    rw [← hcount]
    exact execInfo_eq (strayCount_lt hfirst)
  exact ⟨_, (engineStep_of_firstMarker hp hfirst).trans hexec, hexec, inContent_consumed_past hw hc, rfl,
    phaseOf_info_of_idle hp, rfl, rfl, rfl⟩

end Sys2Proof.Machine
end

section
/-!
PROOFS. The statements about the encoding of 30_encoding.md: decoding undoes encoding, and encoding undoes decoding.
-/

namespace Sys2Proof

open Machine

/-- R69, R72: an opcode's ID, its operand bytes and what follows decode to the opcode's instruction. -/
theorem decode_opcodeId_append {p : Params} (hids : p.idList.Nodup) (op : Opcode) {a : List Byte}
    (ha : a.length = operandBytes op) (rest : List Byte) :
    decode p (opcodeId p op :: a ++ rest) = .unit (decodeOperands p op a) rest := by
  have hlen : ¬ (a ++ rest).length < operandBytes op := by rw [List.length_append]; omega
  rw [List.cons_append, decode_opcode (opcodeOfByte_opcodeId hids op), if_neg hlen, List.take_left' ha,
    List.drop_left' ha]

theorem decode_encode {p : Params} {i : Instr} (hids : p.idList.Nodup) (hwf : WellFormed p i = true)
    (hi : i.isStreamUnit = true) (rest : List Byte) : decode p (encode p i ++ rest) = .unit i rest := by
  cases i with
  | info => cases hi
  | packet => cases hi
  | getInfo => exact decode_opcodeId_append hids .getInfo (a := []) rfl rest
  | setSpeed khz =>
    rw [encode, decode_opcodeId_append hids .setSpeed (bytesLE_length 2 _), decodeOperands,
      ofNat_leNat_bytesLE khz khz.isLt]
  | setProgMode m => exact decode_opcodeId_append hids .setProgMode (a := [m]) rfl rest
  | setPinIoMode pin dir => exact decode_opcodeId_append hids .setPinIoMode (a := [pin, dir]) rfl rest
  | setPinWrite pin level => exact decode_opcodeId_append hids .setPinWrite (a := [pin, level]) rfl rest
  | setPinRead pin => exact decode_opcodeId_append hids .setPinRead (a := [pin]) rfl rest
  | send pn pv dn dv en ev rd =>
    rw [encode, decode_opcodeId_append hids .send (encodeSend_length p pn pv dn dv en ev rd), decodeOperands,
      decodeSend_encodeSend hwf]
  | xferInstruction w =>
    rw [encode, decode_opcodeId_append hids .xferInstruction (bytesLE_length 4 _), decodeOperands,
      ofNat_leNat_bytesLE w w.isLt]
  | getPeResponse => exact decode_opcodeId_append hids .getPeResponse (a := []) rfl rest
  | unrecognisedByte b =>
    have hb : b ∉ p.idList := of_decide_eq_true hwf
    exact decode_unrecognised ((opcodeOfByte_eq_none p b).2 hb) rest

/-- R64, R65: a marker is one byte, which decodes to it where the two markers differ. -/
theorem decodeMarker_encode {p : Params} {i : Instr} (hmarks : p.markPacket ≠ p.markInfo)
    (hi : i.isStreamUnit = false) : ∃ b, encode p i = [b] ∧ decodeMarker p b = some i := by
  cases i with
  | info => exact ⟨p.markInfo, rfl, decodeMarker_markInfo hmarks⟩
  | packet => exact ⟨p.markPacket, rfl, if_pos rfl⟩
  | _ => cases hi

/-- Settles O58: a stream unit by its opcode's ID and operand bytes, a marker by its one byte. -/
theorem decodeEncodeRoundTrip : Obligations.DecodeEncodeRoundTrip := by
  intro p i rest hp hwf
  obtain ⟨_, _, hids, hmarks, _⟩ := hp
  exact ⟨fun hi => decode_encode hids hwf hi rest, decodeMarker_encode hmarks⟩

/-- R73 to R79: the instruction read from an opcode's operand bytes is well-formed, and encodes to its ID and those
bytes. -/
theorem encode_decodeOperands (p : Params) (op : Opcode) {a : List Byte} (ha : a.length = operandBytes op) :
    encode p (decodeOperands p op a) = opcodeId p op :: a ∧ WellFormed p (decodeOperands p op a) = true := by
  cases op with
  | getInfo => exact ⟨by rw [List.eq_nil_of_length_eq_zero ha]; rfl, rfl⟩
  | getPeResponse => exact ⟨by rw [List.eq_nil_of_length_eq_zero ha]; rfl, rfl⟩
  | setSpeed => exact ⟨congrArg (_ :: ·) (bytesLE_ofNat_leNat ha (by decide)), rfl⟩
  | xferInstruction => exact ⟨congrArg (_ :: ·) (bytesLE_ofNat_leNat ha (by decide)), rfl⟩
  | setProgMode | setPinRead =>
    obtain ⟨x, rfl⟩ := List.length_eq_one_iff.1 ha
    exact ⟨rfl, rfl⟩
  | setPinIoMode | setPinWrite =>
    obtain ⟨x, y, rfl⟩ := List.length_eq_two.1 ha
    exact ⟨rfl, rfl⟩
  | send =>
    obtain ⟨pn, pv, dn, dv, en, ev, rd, hdec, henc, hwf⟩ := encodeSend_decodeSend p ha
    rw [decodeOperands, hdec]
    exact ⟨congrArg (_ :: ·) henc, hwf⟩

/-- Settles O59, along the decoder's branches: no byte, an unrecognised byte, a truncated opcode, a whole unit. -/
theorem encodeDecodeRoundTrip : Obligations.EncodeDecodeRoundTrip := by
  intro p bytes rest i h
  refine (and_assoc.1 ⟨?_, decode_isStreamUnit h⟩)
  cases bytes with
  | nil => cases h
  | cons b tl =>
    cases ho : opcodeOfByte p b with
    | none =>
      rw [decode_unrecognised ho] at h
      cases h
      exact ⟨rfl, decide_eq_true ((opcodeOfByte_eq_none p b).1 ho)⟩
    | some op =>
      rw [decode_opcode ho] at h
      split_ifs at h with hlen
      cases h
      have ha : (tl.take (operandBytes op)).length = operandBytes op := List.length_take_of_le (by omega)
      obtain ⟨henc, hwf⟩ := encode_decodeOperands p op ha
      refine ⟨?_, hwf⟩
      rw [henc, opcodeId_of_opcodeOfByte ho, List.cons_append, List.take_append_drop]

/-- Settles O60: each word is evaluated. -/
theorem sampleWordsDecode : Obligations.SampleWordsDecode := by
  refine ⟨?_, ?_, ?_, ?_, ?_, ?_, ?_⟩ <;> decide

end Sys2Proof
end

section
/-!
PROOFS. The statements about the operations of the rings (20_memory.md R42 to R47): Push, Pop, Peek and the FIFO law.
-/

namespace Sys2Proof.Machine

/-- R42: pushing no byte is no change. -/
theorem Ring.push_nil {k : Nat} {b : Ring} (hh : b.head < 2 ^ k) : b.push (2 ^ k) [] = some b := by
  rw [Ring.push_fits (Nat.zero_le _)]
  simp [Ring.pushed, memWrite, mask_of_lt hh]

/-- Settles O7: the branch that fits is Ring.pushed, whose content, indices and other bytes the ring's laws give. -/
theorem pushIsAllOrNothing : Obligations.PushIsAllOrNothing := by
  intro k b bytes hb
  exact ⟨fun hfits => ⟨_, Ring.push_fits hfits, Ring.pushed_wf hb bytes, Ring.pushed_content hb hfits,
    mask_two_pow k _, rfl, fun _ hother => memWrite_read_other hother⟩,
    Ring.push_overflows, Ring.push_nil hb.1⟩

/-- Settles O8: the branch that fits is Ring.popped. -/
theorem popTakesOldestOrUnderflows : Obligations.PopTakesOldestOrUnderflows := by
  intro k name b n hb
  exact ⟨fun hn => ⟨_, Ring.pop_eq name hn, Ring.popped_wf hb n, Ring.popped_content hb hn, rfl, rfl⟩,
    Ring.pop_underflow name⟩

/-- Settles O9: inside Occupied what is read is a part of the content; beyond it the guard faults. -/
theorem peekReadsContentOrUnderflows : Obligations.PeekReadsContentOrUnderflows := fun _ name _ _ _ =>
  ⟨Ring.peek_eq name, Ring.peek_underflow name⟩

/-- R47: along a sequence of Push and Pop, by induction on it: what was held and accepted is what was popped and is
held. -/
theorem runRing_fifo {k : Nat} (ops : List RingOp) {b b' : Ring} {popped accepted : List Byte} (hb : b.Wf (2 ^ k))
    (h : runRing (2 ^ k) ops b = some (popped, accepted, b')) :
    b.content (2 ^ k) ++ accepted = popped ++ b'.content (2 ^ k) ∧ b'.Wf (2 ^ k) := by
  induction ops generalizing b popped accepted with
  | nil =>
    cases h
    exact ⟨List.append_nil _, hb⟩
  | cons op rest ih =>
    cases op with
    | push bytes =>
      by_cases hfits : bytes.length ≤ b.spaceLeft (2 ^ k)
      · simp only [runRing, Ring.push_fits hfits, Option.map_eq_some_iff] at h
        obtain ⟨⟨p, a, r⟩, hrun, heq⟩ := h
        cases heq
        obtain ⟨hfifo, hwf⟩ := ih (Ring.pushed_wf hb bytes) hrun
        rw [Ring.pushed_content hb hfits, List.append_assoc] at hfifo
        exact ⟨hfifo, hwf⟩
      · simp only [runRing, Ring.push_overflows (Nat.lt_of_not_le hfits)] at h
        exact ih hb h
    | pop n =>
      by_cases hn : n ≤ b.occupied (2 ^ k)
      · simp only [runRing, Ring.pop_eq .cmdIn hn, Option.map_eq_some_iff] at h
        obtain ⟨⟨p, a, r⟩, hrun, heq⟩ := h
        cases heq
        obtain ⟨hfifo, hwf⟩ := ih (Ring.popped_wf hb n) hrun
        rw [Ring.popped_content hb hn] at hfifo
        refine ⟨?_, hwf⟩
        rw [List.append_assoc, ← hfifo, ← List.append_assoc, List.take_append_drop]
      · simp only [runRing, Ring.pop_underflow .cmdIn (Nat.lt_of_not_le hn)] at h
        cases h

/-- Settles O10: from an empty ring the FIFO law puts the bytes popped at the front of those accepted. -/
theorem ringFifoLaw : Obligations.RingFifoLaw := by
  intro k ops b b' popped accepted hb h
  obtain ⟨hfifo, hwf⟩ := runRing_fifo ops hb h
  refine ⟨hfifo, hwf, fun hempty => ?_⟩
  rw [hempty, List.nil_append] at hfifo
  exact ⟨_, hfifo.symm⟩

end Sys2Proof.Machine
end

section
/-!
PROOFS. The statements about reset (R35), the schedule (R170) and the two agents beside the engine (R45, R46).
-/

namespace Sys2Proof.Machine

/-- Settles O1: each field of the state after reset is evaluated. -/
theorem resetIsEmptyIdleTristate : Obligations.ResetIsEmptyIdleTristate :=
  ⟨rfl, rfl, rfl, rfl, rfl, rfl, rfl, rfl, rfl, rfl⟩

theorem defaultParams_wf : defaultParams.Wf := by
  unfold Params.Wf
  decide

theorem Ring.reset_wf {N : Nat} (h : 0 < N) : Ring.reset.Wf N := ⟨h, h, rfl, by simp [Ring.reset]⟩

/-- Settles O2: the default parameters are legal, the rings are empty and the phase is Idle. -/
theorem resetHasInvariant : Obligations.ResetHasInvariant :=
  ⟨defaultParams_wf, Ring.reset_wf (Nat.two_pow_pos _), Ring.reset_wf (Nat.two_pow_pos _), rfl,
    fun h => absurd h (by decide)⟩

theorem nextMove_of_schedule {s : State} {m : Move} {rest : List Move} (h : s.env.schedule = m :: rest) :
    nextMove s = m := by
  rw [nextMove, h]; rfl

/-- Settles O11: the head of the schedule selects the arm of moveStep. -/
theorem stepIsTheNextAgentsMove : Obligations.StepIsTheNextAgentsMove := by
  intro s
  refine ⟨step_of_empty_schedule, fun rest h => ?_, fun bytes rest h => ?_, fun n rest h => ?_⟩ <;>
    rw [step, nextMove_of_schedule h] <;> rfl

/-- R45: pushInbound of bytes that do not fit. -/
theorem pushInbound_overflows {bytes : List Byte} {s : State} (h : s.cmdIn.spaceLeft s.cfg.nCmdIn < bytes.length) :
    pushInbound bytes s = raiseOutcome (.inboundOverflow bytes.length) s := by
  unfold pushInbound
  rw [Ring.push_overflows h]

/-- Settles O12: by whether the bytes fit, Ring.pushed or the outcome. -/
theorem pushInboundAppendsOrOverflows : Obligations.PushInboundAppendsOrOverflows := by
  intro s bytes hw
  refine ⟨fun hfits => ?_, pushInbound_overflows⟩
  rw [pushInbound_fits hfits]
  exact ⟨Ring.pushed_content (k := s.cfg.cmdInLog) hw hfits, rfl⟩

/-- R46: the oldest bytes of cmdOut, at most n, are all there are to take. -/
theorem take_min_outContent (n : Nat) (s : State) :
    (outContent s).take (min n (s.cmdOut.occupied s.cfg.nCmdOut)) = (outContent s).take n := by
  rw [← Ring.content_length]
  exact List.take_eq_take_min.symm

theorem drop_min_outContent (n : Nat) (s : State) :
    (outContent s).drop (min n (s.cmdOut.occupied s.cfg.nCmdOut)) = (outContent s).drop n := by
  rw [← Ring.content_length]
  exact List.drop_eq_drop_min.symm

/-- Settles O13: the drain pops min(n, Occupied) bytes. -/
theorem drainOutboundReturnsOldest : Obligations.DrainOutboundReturnsOldest := by
  intro s n hw
  refine ⟨_, drainOutbound_eq n s, ?_, ?_, rfl, rfl, rfl⟩
  · exact congrArg (s.env.drained ++ ·) (take_min_outContent n s)
  · exact (Ring.popped_content (k := s.cfg.cmdOutLog) hw (Nat.min_le_right _ _)).trans (drop_min_outContent n s)

end Sys2Proof.Machine
end

section
/-!
PROOFS. The statements about the framer's transitions (40_framer.md): a packet's marker, length field, checksum and
retirement, the info reply, and the way of a whole frame from Idle to its execution.
-/

namespace Sys2Proof.Machine

/-! ### The marker of a packet (R95) and the info reply (R97) -/

theorem decodeMarker_markPacket (p : Params) : decodeMarker p p.markPacket = some .packet := if_pos rfl

/-- R95: the state in which a packet has begun behind the `n` bytes consumed. -/
abbrev packetBegun (n : Nat) (s : State) : State :=
  (consumed n s).setPkt { type := .packet, status := .ok, expectedLength := 0, currentPos := 0 }

/-- R95: behind stray bytes the scan finds the packet marker, and PACKET consumes through it. -/
theorem engineStep_scanPacket {s : State} {strays rest : List Byte} (hp : phaseOf s.pkt = some .idle)
    (hstray : ∀ b ∈ strays, b ≠ s.cfg.markPacket ∧ b ≠ s.cfg.markInfo)
    (hc : inContent s = strays ++ s.cfg.markPacket :: rest) :
    engineStep s = exec .packet s ∧ exec .packet s = .next (packetBegun (strays.length + 1) s) := by
  have hmark := decodeMarker_markPacket s.cfg
  obtain ⟨hfirst, hcount⟩ := firstMarker_scan hstray (by rw [isMarker, hmark]; rfl) hc
  rw [hmark] at hfirst
  refine ⟨engineStep_of_firstMarker hp hfirst, ?_⟩
  rw [← hcount]
  exact execPacket_eq (strayCount_lt hfirst)

/-- Settles O17: the scan finds the packet marker behind the stray bytes, and its meaning consumes through it. -/
theorem packetMarkerBeginsPacket : Obligations.PacketMarkerBeginsPacket := by
  intro s strays rest hw hp hstray hc
  obtain ⟨hstep, hexec⟩ := engineStep_scanPacket hp hstray hc
  exact ⟨_, hstep.trans hexec, hexec, inContent_consumed_past hw hc, rfl, rfl, rfl, rfl⟩

theorem engineStep_of_infoDue {s : State} (hp : phaseOf s.pkt = some .infoDue) :
    engineStep s = .next (infoReply s) := by
  simp only [engineStep, hp]

/-- R112: a response push changes cmdOut and the history alone. -/
theorem pushResponse_eq_set (r : List Byte) (s : State) :
    pushResponse r s = (s.setCmdOut (pushResponse r s).cmdOut).setHistory (pushResponse r s).history := by
  apply State.ext_fields <;> simp

/-- Settles O19: the reply is a response push, then the type alone is written. -/
theorem infoReplyIsPushed : Obligations.InfoReplyIsPushed := by
  intro s hw hp
  obtain ⟨_, hstatus, hlength, hpos⟩ := phaseOf_infoDue hp
  have hpkt : (infoReply s).pkt = { s.pkt with type := .empty } := by simp [infoReply]
  refine ⟨infoReply s, engineStep_of_infoDue hp, infoReplyBytes_length s, pushResponse_outContent hw _,
    pushResponse_history _ s, hpkt, ?_, pushResponse_outTail _ s, ?_⟩
  · rw [hpkt]
    exact phaseOf_idle_intro rfl hstatus hlength hpos
  · exact congrArg (State.setPkt · (infoReply s).pkt) (pushResponse_eq_set _ s)

/-! ### The length field (R99, R100) -/

theorem engineStep_lengthRead {s : State} (hp : phaseOf s.pkt = some .awaitLength) (hn : 2 ≤ inCount s) :
    engineStep s = .next ((consumed 2 s).setPkt
      { s.pkt with expectedLength := BitVec.ofNat 16 (leNat ((inContent s).take 2)) }) := by
  simp only [engineStep, hp, if_neg (Nat.not_lt.2 hn)]
  rw [lengthRead, popIn_eq hn]
  rfl

/-- R24, R100: a length read in the phase AwaitLength leaves it exactly where it is 0. -/
theorem phaseOf_expectedLength {k : PacketState} (h : phaseOf k = some .awaitLength) (len : U16) :
    phaseOf { k with expectedLength := len } = if len = 0 then some .awaitLength else some .awaitBody := by
  obtain ⟨htype, hstatus, _, hpos⟩ := phaseOf_awaitLength h
  simp only [phaseOf, htype, hstatus, hpos, if_true]

/-- R10: two bytes in little-endian order are the number 0 exactly where both are 0. -/
theorem ofNat_leNat_eq_zero_iff (lo hi : Byte) :
    BitVec.ofNat 16 (lo.toNat + 256 * hi.toNat) = 0 ↔ lo = 0 ∧ hi = 0 := by
  bv_omega

theorem leNat_pair (lo hi : Byte) : leNat [lo, hi] = lo.toNat + 256 * hi.toNat := rfl

/-- R43: what is left of cmdIn's content after a Pop of its first bytes. -/
theorem inContent_consumed_append {s : State} {front rest : List Byte} {n : Nat} (hw : s.cmdIn.Wf s.cfg.nCmdIn)
    (hc : inContent s = front ++ rest) (hn : front.length = n) : inContent (consumed n s) = rest := by
  have hle : n ≤ inCount s := by
    rw [← inContent_length, hc, List.length_append]
    omega
  exact (Ring.popped_content (k := s.cfg.cmdInLog) hw hle).trans ((congrArg _ hc).trans (List.drop_left' hn))

/-- Settles O21: the two bytes read are the front of the content, and their number decides the phase. -/
theorem lengthFieldIsRead : Obligations.LengthFieldIsRead := by
  intro s lo hi rest hw hp hc
  have hn : 2 ≤ inCount s := by
    rw [← inContent_length, hc, List.length_cons, List.length_cons]
    omega
  have hstep := engineStep_lengthRead hp hn
  rw [hc, show (lo :: hi :: rest).take 2 = [lo, hi] from rfl, leNat_pair] at hstep
  refine ⟨_, hstep, inContent_consumed_append (front := [lo, hi]) hw hc rfl, rfl, ?_, rfl, rfl, rfl⟩
  simp only [State.setPkt_pkt, phaseOf_expectedLength hp, ofNat_leNat_eq_zero_iff]

/-! ### The checksum (R102 to R104) -/

/-- R102: the checksum transition where the packet's bytes are buffered, by the sum of its stream and its last byte. -/
theorem engineStep_checksum {s : State} {stream rest : List Byte} {c : Byte} (hp : phaseOf s.pkt = some .awaitBody)
    (hc : inContent s = stream ++ c :: rest) (hlen : stream.length + 1 = s.pkt.expectedLength.toNat) :
    engineStep s =
      if checksumOf stream = c then .next (acceptPacket s) else discardPacket (checksumOf stream) c s := by
  have hL : streamLength s.pkt = stream.length := by unfold streamLength; omega
  have hcount : s.pkt.expectedLength.toNat ≤ inCount s := by
    rw [← inContent_length, hc, List.length_append, List.length_cons]
    omega
  simp only [engineStep, hp, if_neg (Nat.not_lt.2 hcount), checksumStep, hL]
  rw [peekIn_eq (by omega), andThen_next, peekIn_eq (by omega), andThen_next, hc, List.drop_zero,
    List.take_left' rfl, List.drop_left' rfl]
  by_cases hsum : checksumOf stream = c <;> simp [statusOfCheck, hsum]

/-- R24, R103: an accepted packet is under execution. -/
theorem phaseOf_accepted {k : PacketState} (h : phaseOf k = some .awaitBody) :
    phaseOf { k with status := .parsed, currentPos := 0 } = some .executing := by
  obtain ⟨htype, _, hlength, _⟩ := phaseOf_awaitBody h
  exact phaseOf_executing_intro htype rfl hlength (Nat.zero_le _)

/-- Settles O22: the sum of the stream is the byte behind it, so the packet is accepted. -/
theorem matchingChecksumAccepts : Obligations.MatchingChecksumAccepts := by
  intro s stream rest hp hc hlen
  rw [engineStep_checksum hp hc hlen, if_pos rfl]
  exact ⟨rfl, phaseOf_accepted hp⟩

/-- R104: discarding a packet whose bytes are buffered. -/
theorem discardPacket_eq {s : State} (sum c : Byte) (hn : s.pkt.expectedLength.toNat ≤ inCount s) :
    discardPacket sum c s = .next (raiseOutcome (.checksumMismatch sum c)
      (returnToEmpty (consumed s.pkt.expectedLength.toNat (setStatus .error s)))) := by
  rw [discardPacket, popIn_eq (s := setStatus .error s) hn]
  rfl

/-- Settles O23: the sum is not the byte behind the stream, so the packet is popped whole. -/
theorem wrongChecksumDiscards : Obligations.WrongChecksumDiscards := by
  intro s stream rest c hw hp hc hlen hwrong
  have hc' : inContent s = (stream ++ [c]) ++ rest := by rw [hc, List.append_cons]
  have hn : s.pkt.expectedLength.toNat ≤ inCount s := by
    rw [← inContent_length, hc, List.length_append, List.length_cons]
    omega
  have hstep := engineStep_checksum hp hc hlen
  rw [if_neg hwrong.symm, discardPacket_eq _ _ hn] at hstep
  exact ⟨_, hstep, inContent_consumed_append hw hc' (by simpa using hlen), rfl, rfl, rfl, rfl, rfl⟩

theorem byte_xor_bit_ne (b : Byte) {k : Nat} (hk : k < 8) : b ^^^ (1 <<< k) ≠ b := by
  intro h
  have hzero : ((1 <<< k : Nat) : Byte) = 0 := by simpa using h
  interval_cases k <;> exact absurd hzero (by decide)

/-- Settles O25: the checksums differ by the byte that differs, as byte addition cancels. -/
theorem checksumDetectsBitFlip : Obligations.ChecksumDetectsBitFlip := by
  intro before after b k hk h
  simp only [checksumOf_append, checksumOf_cons, BitVec.add_right_inj, BitVec.add_left_inj] at h
  exact byte_xor_bit_ne b hk h

/-! ### Retirement (R105) and packets that do not fit (R106) -/

theorem engineStep_retire {s : State} (hp : phaseOf s.pkt = some .executing)
    (hc : streamLength s.pkt ≤ s.pkt.currentPos.toNat) (hn : s.pkt.expectedLength.toNat ≤ inCount s) :
    engineStep s = .next (returnToEmpty (consumed s.pkt.expectedLength.toNat s)) := by
  simp only [engineStep, hp, if_neg (Nat.not_lt.2 hc), retire, popIn_eq hn]
  rfl

/-- R24: a packet under execution that is retired leaves the decoder Idle. -/
theorem phaseOf_retired {k : PacketState} (h : phaseOf k = some .executing) :
    phaseOf { k with type := .empty, expectedLength := 0, currentPos := 0 } = some .idle := by
  obtain ⟨_, hstatus, _, _⟩ := phaseOf_executing h
  exact phaseOf_idle_intro rfl (by simp [hstatus]) rfl rfl

/-- Settles O26: at the end of the stream the transition is RETIRE, which pops E bytes. -/
theorem finishedPacketRetires : Obligations.FinishedPacketRetires := by
  intro s hw hp hpos hn
  exact ⟨_, engineStep_retire hp hpos hn, Ring.popped_content (k := s.cfg.cmdInLog) hw hn, rfl, phaseOf_retired hp,
    rfl, rfl, rfl⟩

@[simp] theorem pushInbound_pkt (bytes : List Byte) (s : State) : (pushInbound bytes s).pkt = s.pkt := by
  unfold pushInbound; split <;> rfl

@[simp] theorem pushInbound_cfg (bytes : List Byte) (s : State) : (pushInbound bytes s).cfg = s.cfg := by
  unfold pushInbound; split <;> rfl

/-- R106: cmdIn never holds a packet longer than N_CMDIN − 1. -/
theorem engineStep_of_oversize {s : State} (hp : phaseOf s.pkt = some .awaitBody)
    (hlong : s.cfg.nCmdIn - 1 < s.pkt.expectedLength.toNat) : engineStep s = .next s :=
  engineStep_of_suspended (suspended_of_awaitBody hp (Nat.lt_of_le_of_lt (inCount_le s) hlong))

/-- Settles O27: a push keeps PacketState and the parameters, and with them the suspend. -/
theorem oversizePacketNeverAccepted : Obligations.OversizePacketNeverAccepted := fun s hp hlong =>
  ⟨engineStep_of_oversize hp hlong, fun bytes =>
    engineStep_of_oversize (s := pushInbound bytes s) (by rwa [pushInbound_pkt])
      (by rwa [pushInbound_pkt, pushInbound_cfg])⟩

/-! ### A whole frame (R65, S7) -/

/-- R65: a frame is the marker, the two length bytes, the stream and its checksum. -/
theorem encodePacket_eq (p : Params) (stream : List Byte) :
    encodePacket p stream = p.markPacket :: BitVec.ofNat 8 (stream.length + 1) ::
      BitVec.ofNat 8 ((stream.length + 1) / 256) :: (stream ++ [checksumOf stream]) := rfl

/-- R10, R66: the two length bytes read back the length. -/
theorem ofNat_lengthBytes (n : Nat) :
    BitVec.ofNat 16 ((BitVec.ofNat 8 n).toNat + 256 * (BitVec.ofNat 8 (n / 256)).toNat) = BitVec.ofNat 16 n := by
  bv_omega

/-- With nothing scheduled, a run begins with the engine's transition. -/
theorem run_succ_of_engineStep {s t : State} (n : Nat) (hs : s.env.schedule = []) (h : engineStep s = .next t) :
    Host.Core.run core (n + 1) s = Host.Core.run core n t := by
  have hstep : core.step s = .next t := (step_of_empty_schedule hs).trans h
  simp only [Host.Core.run, hstep]

/-- Settles O28: the marker, the length field and the checksum are three transitions, each from the state that the one
before leaves. -/
theorem validFrameReachesExecutor : Obligations.ValidFrameReachesExecutor := by
  intro s strays stream rest hw hsched hp hstray hshort hc
  have hframe : inContent s = strays ++ s.cfg.markPacket :: (BitVec.ofNat 8 (stream.length + 1) ::
      BitVec.ofNat 8 ((stream.length + 1) / 256) :: (stream ++ checksumOf stream :: rest)) := by
    simp [hc, encodePacket_eq]
  have hlength : BitVec.ofNat 16 (stream.length + 1) ≠ 0 := by bv_omega
  obtain ⟨hstep1, hexec1⟩ := engineStep_scanPacket hp hstray hframe
  obtain ⟨t, hstep2, hc2, hpkt2, hphase2, hdata2, _, ht⟩ := lengthFieldIsRead
    (packetBegun (strays.length + 1) s) _ _ _
    (Ring.popped_wf (k := s.cfg.cmdInLog) hw _) rfl (inContent_consumed_past hw hframe)
  rw [ofNat_lengthBytes] at hpkt2
  simp only [← ofNat_leNat_eq_zero_iff, ofNat_lengthBytes, if_neg hlength] at hphase2
  have hexpected : stream.length + 1 = t.pkt.expectedLength.toNat := by
    rw [hpkt2, BitVec.toNat_ofNat, Nat.mod_eq_of_lt hshort]
  obtain ⟨hstep3, hphase3⟩ := matchingChecksumAccepts t stream rest hphase2 hc2 hexpected
  have hset := congrArg (State.setPkt · { t.pkt with status := .parsed, currentPos := 0 }) ht
  refine ⟨t.setPkt { t.pkt with status := .parsed, currentPos := 0 }, ?_, hphase3, ?_, hc2, hdata2, hset⟩
  · rw [run_succ_of_engineStep 2 hsched (hstep1.trans hexec1),
      run_succ_of_engineStep 1 (s := packetBegun _ s) hsched hstep2,
      run_succ_of_engineStep 0 ((congrArg (·.env.schedule) ht).trans hsched) hstep3]
    rfl
  · simp [hpkt2]

end Sys2Proof.Machine
end

section
/-!
PROOFS. The statements about the host opcodes (41_executor.md R110, R114 to R121): the effect of each, by whether its
operand bytes are codes, and what it leaves.
-/

namespace Sys2Proof.Machine

/-! ### Opcodes with no response -/

/-- Settles O33: its meaning is this update by definition. -/
theorem unrecognisedByteIsSkipped : Obligations.UnrecognisedByteIsSkipped := fun _ _ => rfl

/-- Settles O35: its meaning is this update by definition. -/
theorem setSpeedIsIgnored : Obligations.SetSpeedIsIgnored := fun _ _ => rfl

theorem applyProgMode_of_code {s : State} {m : Byte} {x : TransportMode} (h : modeOfByte s.cfg m = some x) :
    applyProgMode m s = s.setMode x := by
  rw [applyProgMode, h]

theorem applyProgMode_of_no_code {s : State} {m : Byte} (h : modeOfByte s.cfg m = none) :
    applyProgMode m s = raiseOutcome (.invalidOperand .setProgMode [m]) s := by
  rw [applyProgMode, h]

/-- Settles O36: by whether the byte is the code of a mode. -/
theorem setProgModeSelectsMode : Obligations.SetProgModeSelectsMode := by
  intro s m hp
  constructor
  · intro x hm
    rw [exec, execSetProgMode, applyProgMode_of_code ((modeOfByte_eq_some hp).2 hm)]
    rfl
  · intro hm
    rw [exec, execSetProgMode, applyProgMode_of_no_code (modeOfByte_eq_none hp hm)]
    rfl

theorem applyPinIoMode_of_codes {s : State} {pin dir : Byte} {p : Pin} {d : Direction}
    (hp : pinOfByte s.cfg pin = some p) (hd : dirOfByte s.cfg dir = some d) :
    applyPinIoMode pin dir s = emit (.gpioSetup p d) s := by
  rw [applyPinIoMode, hp, hd]

theorem applyPinIoMode_of_no_code {s : State} {pin dir : Byte}
    (h : pinOfByte s.cfg pin = none ∨ dirOfByte s.cfg dir = none) :
    applyPinIoMode pin dir s = raiseOutcome (.invalidOperand .setPinIoMode [pin, dir]) s := by
  unfold applyPinIoMode
  rcases h with h | h
  · rw [h]
  · rw [h]
    cases pinOfByte s.cfg pin <;> rfl

/-- Settles O37: by whether both bytes are codes. -/
theorem setPinIoModeEmitsSetup : Obligations.SetPinIoModeEmitsSetup := by
  intro s pin dir hp
  constructor
  · intro p d hpin hdir
    rw [exec, execSetPinIoMode,
      applyPinIoMode_of_codes ((pinOfByte_eq_some hp).2 hpin) ((dirOfByte_eq_some hp).2 hdir)]
    rfl
  · intro hbad
    rw [exec, execSetPinIoMode,
      applyPinIoMode_of_no_code (hbad.imp (pinOfByte_eq_none hp) (dirOfByte_eq_none hp))]
    rfl

theorem applyPinWrite_of_code {s : State} {pin : Byte} {p : Pin} (h : pinOfByte s.cfg pin = some p) (level : Byte) :
    applyPinWrite pin level s = emit (.gpioSet p (levelOfByte level)) s := by
  rw [applyPinWrite, h]

theorem applyPinWrite_of_no_code {s : State} {pin : Byte} (h : pinOfByte s.cfg pin = none) (level : Byte) :
    applyPinWrite pin level s = raiseOutcome (.invalidOperand .setPinWrite [pin]) s := by
  rw [applyPinWrite, h]

/-- Settles O38: by whether the byte is the code of a pin. -/
theorem setPinWriteDrivesPin : Obligations.SetPinWriteDrivesPin := by
  intro s pin level hp
  constructor
  · intro p hpin
    rw [exec, execSetPinWrite, applyPinWrite_of_code ((pinOfByte_eq_some hp).2 hpin)]
    rfl
  · intro hbad
    rw [exec, execSetPinWrite, applyPinWrite_of_no_code (pinOfByte_eq_none hp hbad)]
    rfl

/-! ### Opcodes with a response -/

/-- The state after the events `evs`, with the outside world at `e`: what an opcode makes before its response. -/
abbrev withEvents (s : State) (evs : List Event) (e : Env) : State := (s.setHistory (s.history ++ evs)).setEnv e

/-- R112: an opcode that makes events, then pushes its response, then moves currentPos. -/
theorem opcodeLeaves_response {s : State} (hw : s.cmdOut.Wf s.cfg.nCmdOut) (n : Nat) (evs : List Event)
    (r : List Byte) (e : Env) :
    OpcodeLeaves s n evs r e (advance n (pushResponse r (withEvents s evs e))) where
  cmdIn := by simp
  out := pushResponse_outContent (s := withEvents s evs e) hw r
  outTail := by simp
  pkt := by simp [pastBytes]
  mode := by simp
  history := pushResponse_history r (withEvents s evs e)
  cfg := by simp
  env := by simp

/-- An opcode that makes events and moves currentPos, with no response. -/
theorem opcodeLeaves_no_response (s : State) (n : Nat) (evs : List Event) (e : Env) :
    OpcodeLeaves s n evs [] e (advance n (withEvents s evs e)) where
  cmdIn := rfl
  out := by simp [landed, outContent]
  outTail := rfl
  pkt := rfl
  mode := rfl
  history := by simp [dropEvents]
  cfg := rfl
  env := rfl

theorem withEvents_nil (s : State) : withEvents s [] s.env = s := by simp [withEvents]

/-- Settles O34: the info block is a response behind no event. -/
theorem getInfoAnswersInfoBlock : Obligations.GetInfoAnswersInfoBlock := by
  intro s hw
  have hleaves := opcodeLeaves_response hw 1 [] (infoReplyBytes s) s.env
  rw [withEvents_nil] at hleaves
  exact ⟨_, rfl, infoReplyBytes_length s, hleaves⟩

theorem samplePin_of_code {s : State} {pin : Byte} {p : Pin} (h : pinOfByte s.cfg pin = some p) :
    samplePin pin s = (normaliseLevel s.env.level, withEvents s [.gpioGet p s.env.level] s.env.afterLevel) := by
  rw [samplePin, h]
  rfl

theorem samplePin_of_no_code {s : State} {pin : Byte} (h : pinOfByte s.cfg pin = none) :
    samplePin pin s = (0, withEvents s [.outcome (.invalidOperand .setPinRead [pin])] s.env) := by
  rw [samplePin, h]
  rfl

/-- R10, R119: the four little-endian bytes of a level normalised to 0 or 1. -/
theorem bytesLE_normaliseLevel (lv : Nat) :
    bytesLE 4 (normaliseLevel lv) = if lv = 0 then [0, 0, 0, 0] else [1, 0, 0, 0] := by
  unfold normaliseLevel
  split_ifs <;> rfl

/-- Settles O39: by whether the byte is the code of a pin. -/
theorem setPinReadAnswersLevel : Obligations.SetPinReadAnswersLevel := by
  intro s pin hp hw
  constructor
  · intro p hpin
    refine ⟨_, rfl, ?_⟩
    rw [samplePin_of_code ((pinOfByte_eq_some hp).2 hpin), bytesLE_normaliseLevel]
    exact opcodeLeaves_response hw _ _ _ _
  · intro hbad
    refine ⟨_, rfl, ?_⟩
    rw [samplePin_of_no_code (pinOfByte_eq_none hp hbad), show bytesLE 4 0 = [0, 0, 0, 0] from rfl]
    exact opcodeLeaves_response hw _ _ _ _

/-- Settles O40: by whether the read flag is set. -/
theorem sendMakesOneRawCall : Obligations.SendMakesOneRawCall := by
  intro s pn pv dn dv en ev rd hw
  refine ⟨_, execSend_eq pn pv dn dv en ev rd s, ?_⟩
  rw [respondIf_eq]
  split_ifs with hrd
  · exact opcodeLeaves_no_response s 29 _ _
  · exact opcodeLeaves_response hw 29 _ _ _

end Sys2Proof.Machine
end

section
/-!
PROOFS. The statements about the TAP encoder (42_tap_encoder.md) and the two opcodes that poll the target
(43_poll_controller.md): the calls each makes, what it answers, and that JTAG and ICSP differ in the function named
alone.
-/

namespace Sys2Proof.Machine

/-! ### One call in each mode (R131) -/

theorem afterCalls_one_of_jtag {s : State} (h : s.transportMode = .jtag) (call : TransportCall) :
    afterCalls [call] s =
      (s.setHistory (s.history ++ [.sendJTAG call (s.env.capture 0)])).setEnv (s.env.afterCaptures 1) := by
  simp [afterCalls, callEvents, envAfterCalls, eventsFrom, h]

theorem afterCalls_one_of_icsp {s : State} (h : s.transportMode = .icsp) (call : TransportCall) :
    afterCalls [call] s =
      (s.setHistory (s.history ++ [.sendICSP call (s.env.capture 0)])).setEnv (s.env.afterCaptures 1) := by
  simp [afterCalls, callEvents, envAfterCalls, eventsFrom, h]

theorem callEvents_of_tristate {s : State} (h : s.transportMode = .tristate) (calls : List TransportCall) :
    callEvents s calls = [] := by
  simp [callEvents, h]

theorem envAfterCalls_of_tristate {s : State} (h : s.transportMode = .tristate) (n : Nat) :
    envAfterCalls s n = s.env := by
  simp [envAfterCalls, h]

theorem afterCalls_of_tristate {s : State} (h : s.transportMode = .tristate) (calls : List TransportCall) :
    afterCalls calls s = s := by
  simp [afterCalls, callEvents_of_tristate h, envAfterCalls_of_tristate h]

theorem callAnswer_of_tristate {s : State} (h : s.transportMode = .tristate) (j : Nat) :
    callAnswer s j = s.cfg.tristateCapture := by
  simp [callAnswer, h]

/-- Settles O41, by the mode. -/
theorem sendCommandMakesOneCall : Obligations.SendCommandMakesOneCall := by
  intro s c f call hf hcall
  subst hcall
  rw [sendCommand_eq hf]
  exact ⟨fun h => congrArg _ (afterCalls_one_of_jtag h _), fun h => congrArg _ (afterCalls_one_of_icsp h _),
    fun h => congrArg _ (afterCalls_of_tristate h _)⟩

/-- Settles O42, by the mode. -/
theorem xferDataReturnsCaptureIfRead : Obligations.XferDataReturnsCaptureIfRead := by
  intro s n d rd call hcall
  subst hcall
  rw [xferData_eq]
  refine ⟨fun h => Prod.ext ?_ (afterCalls_one_of_jtag h _), fun h => Prod.ext ?_ (afterCalls_one_of_icsp h _),
    fun h => Prod.ext ?_ (afterCalls_of_tristate h _)⟩ <;> simp [callAnswer, h]

/-! ### The polls (R146 to R154) -/

/-- Settles O43: the two ways a poll can end. -/
theorem pollMakesOneToFortyAttempts : Obligations.PollMakesOneToFortyAttempts := by
  intro s t bit r h
  rcases pollReady_cases bit s with ⟨hpoll, hnone⟩ | ⟨m, hm, hpoll, hbefore, hready⟩
  · cases hpoll.symm.trans h
    exact ⟨fun _ => ⟨rfl, hnone⟩, fun i hi => nomatch hi⟩
  · cases hpoll.symm.trans h
    refine ⟨fun hi => absurd hi (by simp), fun i hi => ?_⟩
    cases hi
    exact ⟨by omega, by omega, rfl, hbefore, hready⟩

/-- R146, R150: a poll after its selection, none of whose attempts reads ready. -/
theorem pollReady_selected_times_out {s : State} {bit : Nat}
    (h : ∀ j, 1 ≤ j → j ≤ 40 → ¬ attemptReady s bit j) :
    pollReady bit (afterCalls [etapCall s.cfg .etapControl] s) = (none, afterCalls (pollCalls s.cfg 40) s) := by
  rw [pollReady_times_out, afterCalls_afterCalls]
  · rfl
  · intro j hj
    rw [callAnswer_afterCalls]
    exact Bool.eq_false_of_not_eq_true (h _ (Nat.le_add_right 1 j) (by simp; omega))

/-- R146, R149: a poll after its selection, whose attempt i is the first to read ready. -/
theorem pollReady_selected_reads_ready {s : State} {bit i : Nat} (h1 : 1 ≤ i) (h40 : i ≤ 40)
    (hbefore : ∀ j, 1 ≤ j → j < i → ¬ attemptReady s bit j) (hready : attemptReady s bit i) :
    pollReady bit (afterCalls [etapCall s.cfg .etapControl] s) = (some i, afterCalls (pollCalls s.cfg i) s) := by
  obtain ⟨m, rfl⟩ : ∃ m, i = m + 1 := ⟨i - 1, by omega⟩
  rw [pollReady_reads_ready (m := m) (by omega), afterCalls_afterCalls]
  · rfl
  · intro j hj
    rw [callAnswer_afterCalls]
    exact Bool.eq_false_of_not_eq_true (hbefore _ (Nat.le_add_right 1 j) (by simp; omega))
  · rw [callAnswer_afterCalls, List.length_singleton, Nat.add_comm]
    exact hready

theorem pollCalls_length (p : Params) (i : Nat) : (pollCalls p i).length = i + 1 := by simp [pollCalls]

theorem poll_exchange_length (p : Params) (i : Nat) (d : U32) :
    (pollCalls p i ++ exchangeCalls p d).length = 5 + i := by
  rw [List.length_append, pollCalls_length, exchangeCalls]
  simp only [List.length_cons, List.length_nil]
  omega

theorem afterCalls_eq_withEvents (calls : List TransportCall) (s : State) :
    afterCalls calls s = withEvents s (callEvents s calls) (envAfterCalls s calls.length) := rfl

/-- Transport operations after an event that draws no answer. -/
theorem afterCalls_emit (calls : List TransportCall) (e : Event) (s : State) :
    afterCalls calls (emit e s) = withEvents s (e :: callEvents s calls) (envAfterCalls s calls.length) := by
  apply State.ext_fields <;> simp [callEvents, envAfterCalls]

/-- An outcome after events is one more event. -/
theorem raiseOutcome_withEvents (o : BlockOutcome) (s : State) (evs : List Event) (e : Env) :
    raiseOutcome o (withEvents s evs e) = withEvents s (evs ++ [.outcome o]) e := by
  apply State.ext_fields <;> simp

/-- Settles O44: the poll reads ready, so the exchange follows it. -/
theorem xferInstructionShiftsWordWhenReady : Obligations.XferInstructionShiftsWordWhenReady := by
  intro s w i hw h1 h40 hbefore hready
  refine ⟨_, ?_, opcodeLeaves_response hw _ _ _ _⟩
  rw [exec, execXferInstruction_eq, pollReady_selected_reads_ready h1 h40 hbefore hready]
  simp only [afterCalls_cfg, afterCalls_afterCalls]
  rw [afterCalls_eq_withEvents, poll_exchange_length]
  rfl

/-- Settles O45: the poll times out, so the outcome and the sentinel follow it. -/
theorem xferInstructionTimesOut : Obligations.XferInstructionTimesOut := by
  intro s w hw hnever
  refine ⟨_, ?_, opcodeLeaves_response hw _ _ _ _⟩
  rw [exec, execXferInstruction_eq, pollReady_selected_times_out hnever]
  simp only [pollTimedOut, afterCalls_cfg]
  rw [afterCalls_eq_withEvents, raiseOutcome_withEvents, pollCalls_length]

/-- R151: the answer that GET_PE_RESPONSE reads, behind the selection, i attempts and ETAP_DATA. -/
theorem callAnswer_after_poll (s : State) (i : Nat) :
    callAnswer (afterCalls (pollCalls s.cfg i) s) 1 = callAnswer s (i + 2) := by
  rw [callAnswer_afterCalls, pollCalls_length]

/-- Settles O46: as XFER_INSTRUCTION, behind a Delay, and the exchange's read is the response. -/
theorem getPeResponseAnswersWhenReady : Obligations.GetPeResponseAnswersWhenReady := by
  intro s i hw h1 h40 hbefore hready
  refine ⟨_, ?_, opcodeLeaves_response hw _ _ _ _⟩
  have hpoll := pollReady_selected_reads_ready (s := emit (.delay s.cfg.peSettleTicks) s) h1 h40 hbefore hready
  have hanswer := callAnswer_after_poll (emit (.delay s.cfg.peSettleTicks) s) i
  simp only [emit_cfg] at hpoll hanswer
  rw [exec, execGetPeResponse_eq, hpoll]
  simp only [hanswer, afterCalls_cfg, emit_cfg, afterCalls_afterCalls, BitVec.toNat_setWidth]
  rw [afterCalls_emit, poll_exchange_length]
  rfl

/-- Settles O47: as XFER_INSTRUCTION, behind a Delay. -/
theorem getPeResponseTimesOut : Obligations.GetPeResponseTimesOut := by
  intro s hw hnever
  refine ⟨_, ?_, opcodeLeaves_response hw _ _ _ _⟩
  have hpoll := pollReady_selected_times_out (s := emit (.delay s.cfg.peSettleTicks) s) hnever
  simp only [emit_cfg] at hpoll
  rw [exec, execGetPeResponse_eq, hpoll]
  simp only [pollTimedOut, afterCalls_emit, raiseOutcome_withEvents, pollCalls_length]
  rfl

/-- R154: in Tristate no attempt reads ready a bit that TRISTATE_CAPTURE has clear. -/
theorem not_attemptReady_of_tristate {s : State} (h : s.transportMode = .tristate) {bit : Nat}
    (hbit : s.cfg.tristateCapture.getLsbD bit = false) (j : Nat) :
    ¬ attemptReady s bit j := by
  simp [attemptReady, callAnswer_of_tristate h, hbit]

/-- Settles O48: in Tristate every attempt reads TRISTATE_CAPTURE and no call makes an event. -/
theorem tristatePollsTimeOutSilently : Obligations.TristatePollsTimeOutSilently := by
  intro s w hw htri
  constructor
  · intro hbit
    obtain ⟨t, hexec, hleaves⟩ :=
      xferInstructionTimesOut s w hw (fun j _ _ => not_attemptReady_of_tristate htri hbit j)
    rw [callEvents_of_tristate htri, envAfterCalls_of_tristate htri] at hleaves
    exact ⟨t, hexec, hleaves⟩
  · intro hbit
    obtain ⟨t, hexec, hleaves⟩ := getPeResponseTimesOut s hw (fun j _ _ => not_attemptReady_of_tristate htri hbit j)
    rw [callEvents_of_tristate htri, envAfterCalls_of_tristate htri] at hleaves
    exact ⟨t, hexec, hleaves⟩

/-! ### JTAG and ICSP (R140) -/

/-- R140: `u` is the ICSP state that stands beside the JTAG state `s`: the same but for the mode, and for the function
that the events since `base` name. -/
structure IcspTwin (base : List Event) (s u : State) : Prop where
  jtag : s.transportMode = .jtag
  twin : ∃ evs, s.history = base ++ evs ∧ u = (s.setMode .icsp).setHistory (base ++ evs.map toIcspEvent)

namespace IcspTwin

theorem of_jtag {s : State} (h : s.transportMode = .jtag) : IcspTwin s.history s (s.setMode .icsp) :=
  ⟨h, [], by simp, by simp only [List.map_nil, List.append_nil]; rfl⟩

variable {base : List Event} {s u : State}

theorem eq_renamed (h : IcspTwin base s u) :
    u = (s.setMode .icsp).setHistory (base ++ (s.history.drop base.length).map toIcspEvent) := by
  obtain ⟨evs, hist, hu⟩ := h.twin
  rw [hu, hist, List.drop_left]

theorem cfg_eq (h : IcspTwin base s u) : u.cfg = s.cfg := by
  obtain ⟨_, _, rfl⟩ := h.twin
  rfl

theorem callAnswer_eq (h : IcspTwin base s u) (j : Nat) : callAnswer u j = callAnswer s j := by
  obtain ⟨_, _, rfl⟩ := h.twin
  simp [callAnswer, h.jtag]

theorem emit {e : Event} (h : IcspTwin base s u) (he : toIcspEvent e = e) :
    IcspTwin base (emit e s) (Machine.emit e u) := by
  obtain ⟨evs, hist, rfl⟩ := h.twin
  refine ⟨h.jtag, evs ++ [e], by simp [hist], ?_⟩
  apply State.ext_fields <;> simp [he]

theorem advance (h : IcspTwin base s u) (n : Nat) : IcspTwin base (advance n s) (Machine.advance n u) := by
  obtain ⟨evs, hist, rfl⟩ := h.twin
  exact ⟨h.jtag, evs, hist, rfl⟩

theorem pushResponse (h : IcspTwin base s u) (r : List Byte) :
    IcspTwin base (pushResponse r s) (Machine.pushResponse r u) := by
  by_cases hfits : r.length ≤ outSpace s
  · obtain ⟨evs, hist, rfl⟩ := h.twin
    rw [pushResponse_fits hfits, pushResponse_fits (by exact hfits)]
    exact ⟨h.jtag, evs, hist, rfl⟩
  · have hspace : outSpace u = outSpace s := by
      obtain ⟨_, _, rfl⟩ := h.twin
      rfl
    rw [pushResponse_drops (by omega), pushResponse_drops (by omega)]
    exact h.emit rfl

theorem map_eventsFrom (e : Env) (j : Nat) (calls : List TransportCall) :
    (eventsFrom .sendJTAG e j calls).map toIcspEvent = eventsFrom .sendICSP e j calls := by
  induction calls generalizing j with
  | nil => rfl
  | cons c rest ih => simp [eventsFrom, toIcspEvent, ih]

theorem afterCalls (h : IcspTwin base s u) (calls : List TransportCall) :
    IcspTwin base (afterCalls calls s) (Machine.afterCalls calls u) := by
  obtain ⟨evs, hist, rfl⟩ := h.twin
  refine ⟨h.jtag, evs ++ callEvents s calls, by simp [hist], ?_⟩
  apply State.ext_fields <;> simp [callEvents, envAfterCalls, h.jtag, map_eventsFrom]

/-- R140, R146: a poll gives the same answer after the same attempts. -/
theorem pollReady (h : IcspTwin base s u) (bit : Nat) :
    ∃ r a b, pollReady bit s = (r, a) ∧ Machine.pollReady bit u = (r, b) ∧ IcspTwin base a b := by
  rcases pollReady_cases bit s with ⟨hpoll, hnone⟩ | ⟨m, hm, hpoll, hbefore, hready⟩
  · simp only [← h.callAnswer_eq] at hnone
    exact ⟨_, _, _, hpoll, h.cfg_eq ▸ pollReady_times_out hnone, h.afterCalls _⟩
  · simp only [← h.callAnswer_eq] at hbefore hready
    exact ⟨_, _, _, hpoll, h.cfg_eq ▸ pollReady_reads_ready hm hbefore hready, h.afterCalls _⟩

theorem respondIf (h : IcspTwin base s u) (rd : U32) (cap : U64) :
    IcspTwin base (respondIf rd cap s) (Machine.respondIf rd cap u) := by
  unfold Machine.respondIf
  split
  · exact h.pushResponse _
  · exact h

theorem pollTimedOut (h : IcspTwin base s u) (op : Opcode) :
    IcspTwin base (pollTimedOut op s) (Machine.pollTimedOut op u) := by
  unfold Machine.pollTimedOut
  rw [h.cfg_eq]
  exact (h.emit rfl).pushResponse _

/-- R140: a transport-driving opcode takes a twin to a twin. -/
theorem exec {i : Instr} (hi : drivesTransport i = true) (h : IcspTwin base s u) :
    ∃ t v, exec i s = .next t ∧ Machine.exec i u = .next v ∧ IcspTwin base t v := by
  cases i with
  | send pn pv dn dv en ev rd =>
    refine ⟨_, _, execSend_eq pn pv dn dv en ev rd s, execSend_eq pn pv dn dv en ev rd u, ?_⟩
    rw [h.callAnswer_eq]
    exact ((h.afterCalls _).respondIf rd _).advance 29
  | xferInstruction w =>
    obtain ⟨r, a, b, ha, hb, hab⟩ := (h.afterCalls [etapCall s.cfg .etapControl]).pollReady s.cfg.probenBit
    simp only [Machine.exec, execXferInstruction_eq, h.cfg_eq, ha, hb]
    cases r with
    | none => exact ⟨_, _, rfl, rfl, (hab.pollTimedOut _).advance 5⟩
    | some i => exact ⟨_, _, rfl, rfl, hab.cfg_eq ▸ ((hab.afterCalls _).pushResponse _).advance 5⟩
  | getPeResponse =>
    have hdelay := h.emit (e := .delay s.cfg.peSettleTicks) rfl
    obtain ⟨r, a, b, ha, hb, hab⟩ := (hdelay.afterCalls [etapCall s.cfg .etapControl]).pollReady s.cfg.praccBit
    simp only [Machine.exec, execGetPeResponse_eq, h.cfg_eq, ha, hb]
    cases r with
    | none => exact ⟨_, _, rfl, rfl, (hab.pollTimedOut _).advance 1⟩
    | some i =>
      refine ⟨_, _, rfl, rfl, ?_⟩
      rw [hab.cfg_eq, hab.callAnswer_eq]
      exact ((hab.afterCalls _).pushResponse _).advance 1
  | _ => cases hi

end IcspTwin

/-- Settles O49: JTAG and ICSP states begin as twins, and the opcode keeps them so. -/
theorem jtagAndIcspMakeSameCalls : Obligations.JtagAndIcspMakeSameCalls := by
  intro s i hi hjtag
  obtain ⟨t, u, ht, hu, htwin⟩ := (IcspTwin.of_jtag hjtag).exec hi
  exact ⟨t, u, ht, hu, htwin.eq_renamed⟩

end Sys2Proof.Machine
end

section
/-!
PROOFS. The statements about what one instruction leaves unchanged (the frames of exec), and how many calls it makes.
-/

namespace Sys2Proof.Machine

/-- What a stream unit that answers has done: exec_unit read from its answer. -/
theorem exec_unit_next {i : Instr} {s t : State} (hi : i.isStreamUnit = true) (h : exec i s = .next t) :
    ∃ m evs e r, UnitEffect i s m evs e r ∧ t = advance (instrLength i) (answered r (unitState s m evs e)) := by
  obtain ⟨m, evs, e, r, heffect, hexec⟩ := exec_unit hi s
  cases hexec.symm.trans h
  exact ⟨m, evs, e, r, heffect, rfl⟩

theorem execInfo_next {s t : State} (h : execInfo s = .next t) :
    t = (consumed (strayCount s + 1) s).setPkt { s.pkt with type := .info } := by
  obtain ⟨r, hpop, hr⟩ := andThen_eq_next h
  obtain ⟨_, rfl⟩ := popIn_eq_next hpop
  cases hr
  rfl

theorem execPacket_next {s t : State} (h : execPacket s = .next t) : t = packetBegun (strayCount s + 1) s := by
  obtain ⟨r, hpop, hr⟩ := andThen_eq_next h
  obtain ⟨_, rfl⟩ := popIn_eq_next hpop
  cases hr
  rfl

/-- R95, R96: a marker that answers has consumed bytes of cmdIn and written PacketState, and nothing else. -/
theorem exec_marker_next {i : Instr} {s t : State} (hi : i.isStreamUnit = false) (h : exec i s = .next t) :
    ∃ n k, t = (consumed n s).setPkt k ∧ (i = .info → k = { s.pkt with type := .info }) := by
  cases i with
  | info => exact ⟨_, _, execInfo_next h, fun _ => rfl⟩
  | packet => exact ⟨_, _, execPacket_next h, fun hinfo => nomatch hinfo⟩
  | _ => cases hi

/-- Settles O50: a marker makes no event; of a unit, UnitEffect bounds the events and the response adds a drop. -/
theorem transportCallsAreBounded : Obligations.TransportCallsAreBounded := by
  intro i s t h
  cases hi : i.isStreamUnit with
  | false =>
    obtain ⟨n, k, rfl, _⟩ := exec_marker_next hi h
    exact ⟨[], (List.append_nil _).symm, by simp, by simp⟩
  | true =>
    obtain ⟨m, evs, e, r, heffect, rfl⟩ := exec_unit_next hi h
    obtain ⟨drops, hhist, hcalls, hdelays⟩ := answered_history r (unitState s m evs e)
    refine ⟨evs ++ drops, ?_, ?_, ?_⟩
    · simp [hhist]
    · rw [List.countP_append, hcalls]
      exact heffect.transports
    · rw [List.countP_append, hdelays]
      exact heffect.delays

/-- R112: a unit's response stores bytes from cmdOut's head on and nowhere else. -/
theorem answered_read_other {i : Instr} {s : State} {m : TransportMode} {evs : List Event} {e : Env}
    {r : Option (List Byte)} {a : Nat} (heffect : UnitEffect i s m evs e r)
    (ha : ∀ j < responseBytes i, a ≠ mask s.cfg.nCmdOut (s.cmdOut.head + j)) :
    (answered r (unitState s m evs e)).cmdOut.data.read a = s.cmdOut.data.read a := by
  cases r with
  | none => rfl
  | some bytes =>
    obtain ⟨hlen, _⟩ := heffect.response.1 bytes rfl
    exact pushResponse_read_other (s := unitState s m evs e) (hlen ▸ ha)

/-- Settles O51: the unit's effect, its response and the move of currentPos, field by field. -/
theorem streamUnitFrame : Obligations.StreamUnitFrame := by
  intro i s t hi h
  obtain ⟨m, evs, e, r, heffect, rfl⟩ := exec_unit_next hi h
  obtain ⟨drops, hhist, _⟩ := answered_history r (unitState s m evs e)
  refine ⟨by simp, by simp [pastBytes], ?_, by simp, ?_, ?_, by simp, fun a ha => answered_read_other heffect ha,
    evs ++ drops, by simp [hhist]⟩
  · simpa using heffect.mode
  · simpa using heffect.schedule
  · simpa using heffect.drained

/-- Settles O52: a unit with no response bytes pushes nothing. -/
theorem unitsWithoutResponseLeaveOutput : Obligations.UnitsWithoutResponseLeaveOutput := by
  intro i s t hi hnone h
  obtain ⟨m, evs, e, r, heffect, rfl⟩ := exec_unit_next hi h
  cases r with
  | none => exact ⟨rfl, fun hdrives => heffect.env hdrives hnone⟩
  | some bytes => exact absurd hnone (heffect.response.1 bytes rfl).2

/-- Settles O53: a marker writes cmdIn's tail and PacketState alone. -/
theorem markerFrame : Obligations.MarkerFrame := by
  intro i s t hi h
  have hmarker : i.isStreamUnit = false := by rcases hi with rfl | rfl <;> rfl
  obtain ⟨n, k, rfl, hinfo⟩ := exec_marker_next hmarker h
  exact ⟨rfl, rfl, rfl, rfl, rfl, rfl, rfl, hinfo⟩

end Sys2Proof.Machine
end

section
/-!
PROOFS. The statements about the executor (41_executor.md R109, R111, R122, R123): which instruction an EXEC-STEP runs,
that it moves currentPos forward inside the stream, and that every packet under execution is retired.
-/

namespace Sys2Proof.Machine

/-! ### What an EXEC-STEP runs -/

theorem engineStep_executing {s : State} (hp : phaseOf s.pkt = some .executing)
    (hc : s.pkt.currentPos.toNat < streamLength s.pkt) : engineStep s = executorStep s := by
  simp only [engineStep, hp, if_pos hc]

/-- R109, R110: where the decoder reads a unit in what is left of the stream, the transition is its meaning. -/
theorem engineStep_of_decode_unit {s : State} {i : Instr} {rest : List Byte} (hp : phaseOf s.pkt = some .executing)
    (hc : s.pkt.currentPos.toNat < streamLength s.pkt) (he : s.pkt.expectedLength.toNat ≤ inCount s)
    (hd : decode s.cfg (streamLeft s) = .unit i rest) : engineStep s = exec i s := by
  rw [engineStep_executing hp hc, executorStep, fetchUnit_eq hc he, hd]
  rfl

/-- R111: where the decoder reads a truncated opcode, the transition ends the scan. -/
theorem engineStep_of_decode_truncated {s : State} {op : Opcode} (hp : phaseOf s.pkt = some .executing)
    (hc : s.pkt.currentPos.toNat < streamLength s.pkt) (he : s.pkt.expectedLength.toNat ≤ inCount s)
    (hd : decode s.cfg (streamLeft s) = .truncated op) : engineStep s = .next (truncateScan op s) := by
  rw [engineStep_executing hp hc, executorStep, fetchUnit_eq hc he, hd]
  rfl

theorem step_of_engine_next {s : State} (h : nextMove s = .engine) : step s = engineStep (takeMove s) := by
  rw [step, h]
  rfl

/-- Settles O29: taking the move off the schedule leaves the phase, cmdIn and the parameters. -/
theorem stepRunsDecodedInstruction : Obligations.StepRunsDecodedInstruction := by
  intro s hmove
  rw [step_of_engine_next hmove]
  exact ⟨fun i hp hfirst => engineStep_of_firstMarker (s := takeMove s) hp hfirst,
    fun i rest hp hc he hd => engineStep_of_decode_unit (s := takeMove s) hp hc he hd⟩

/-- Settles O30: what is left of the stream decodes to the truncated opcode. -/
theorem truncatedOpcodeEndsScan : Obligations.TruncatedOpcodeEndsScan := fun _ _ hp hc he hd =>
  engineStep_of_decode_truncated hp hc he hd

/-! ### What an EXEC-STEP leaves -/

theorem streamLength_lt (k : PacketState) : streamLength k < 2 ^ 16 := by
  have := k.expectedLength.isLt
  unfold streamLength
  omega

theorem instrLength_pos (i : Instr) : 0 < instrLength i := by
  cases i <;> simp [instrLength]

/-- R25: inside the stream currentPos does not wrap. -/
theorem pastBytes_currentPos {s : State} {n : Nat} (h : s.pkt.currentPos.toNat + n ≤ streamLength s.pkt) :
    (pastBytes s n).currentPos.toNat = s.pkt.currentPos.toNat + n := by
  have hL := streamLength_lt s.pkt
  simp only [pastBytes, BitVec.toNat_add, BitVec.toNat_ofNat, Nat.add_mod_mod]
  exact Nat.mod_eq_of_lt (by omega)

/-- R25, R61, R123: what every EXEC-STEP leaves: cmdIn, the parameters, the schedule and PacketState but currentPos,
which moves forward and not past the stream's end. -/
structure ExecStepLeaves (s t : State) : Prop where
  cmdIn : t.cmdIn = s.cmdIn
  cfg : t.cfg = s.cfg
  schedule : t.env.schedule = s.env.schedule
  pkt : t.pkt = { s.pkt with currentPos := t.pkt.currentPos }
  forward : s.pkt.currentPos.toNat < t.pkt.currentPos.toNat
  inside : t.pkt.currentPos.toNat ≤ streamLength s.pkt

theorem execStep_leaves {s t : State} (hp : phaseOf s.pkt = some .executing)
    (hc : s.pkt.currentPos.toNat < streamLength s.pkt) (h : engineStep s = .next t) : ExecStepLeaves s t := by
  cases engineStep_does h with
  | unit i rest m evs e r _ _ hfetch heffect =>
    obtain ⟨_, _, hunit⟩ := fetchUnit_next hfetch
    obtain ⟨_, hend⟩ := hunit i rest rfl
    have hpkt : (advance (instrLength i) (answered r (unitState s m evs e))).pkt = pastBytes s (instrLength i) := by
      simp [pastBytes]
    have hpos := pastBytes_currentPos (hend hc)
    have hlen := instrLength_pos i
    exact ⟨by simp, by simp, by simpa using heffect.schedule, by rw [hpkt]; rfl, by rw [hpkt, hpos]; omega,
      by rw [hpkt, hpos]; exact hend hc⟩
  | truncated op _ _ _ =>
    have hnew : (truncateScan op s).pkt.currentPos.toNat = streamLength s.pkt :=
      (BitVec.toNat_ofNat _ _).trans (Nat.mod_eq_of_lt (streamLength_lt _))
    exact ⟨rfl, rfl, rfl, rfl, hnew ▸ hc, hnew.le⟩
  | suspend hsusp => simp [suspended, hp] at hsusp
  | retire _ hdone _ => omega
  | scanPacket hp' | scanInfo hp' | infoReply hp' | lengthRead hp' | accept hp' | discard _ _ hp' => simp [hp] at hp'

/-- Settles O31: the three parts of what an EXEC-STEP leaves. -/
theorem currentPosMovesForward : Obligations.CurrentPosMovesForward := by
  intro s t _ hp hc h
  have hleaves := execStep_leaves hp hc h
  exact ⟨hleaves.forward, hleaves.inside, hleaves.pkt⟩

/-- R24: an EXEC-STEP stays in the phase Executing. -/
theorem ExecStepLeaves.phase {s t : State} (h : ExecStepLeaves s t) (hp : phaseOf s.pkt = some .executing) :
    phaseOf t.pkt = some .executing := by
  obtain ⟨htype, hstatus, hlength, _⟩ := phaseOf_executing hp
  rw [h.pkt]
  exact phaseOf_executing_intro htype hstatus hlength h.inside

theorem ExecStepLeaves.expectedLength {s t : State} (h : ExecStepLeaves s t) :
    t.pkt.expectedLength = s.pkt.expectedLength := by
  rw [h.pkt]

theorem ExecStepLeaves.inContent {s t : State} (h : ExecStepLeaves s t) : inContent t = inContent s := by
  rw [Machine.inContent, h.cmdIn, h.cfg]
  rfl

theorem ExecStepLeaves.inCount {s t : State} (h : ExecStepLeaves s t) : inCount t = inCount s := by
  rw [← inContent_length, h.inContent, inContent_length]

/-! ### Every packet is retired -/

/-- R109 to R111: while the packet's bytes lie in cmdIn, an EXEC-STEP answers. -/
theorem engineStep_executing_answers {s : State} (hp : phaseOf s.pkt = some .executing)
    (hc : s.pkt.currentPos.toNat < streamLength s.pkt) (he : s.pkt.expectedLength.toNat ≤ inCount s) :
    ∃ t, engineStep s = .next t := by
  cases hd : decode s.cfg (streamLeft s) with
  | unit i rest =>
    obtain ⟨m, evs, e, r, _, hexec⟩ := exec_unit (decode_isStreamUnit hd) s
    exact ⟨_, (engineStep_of_decode_unit hp hc he hd).trans hexec⟩
  | truncated op => exact ⟨_, engineStep_of_decode_truncated hp hc he hd⟩
  | noByte =>
    have hlen := streamLeft_length he
    cases hl : streamLeft s with
    | nil => rw [hl, List.length_nil] at hlen; omega
    | cons b rest =>
      rw [hl, decode] at hd
      split at hd
      · cases hd
      · split_ifs at hd

/-- R122, R123, by induction on the bytes of the stream still to execute: each EXEC-STEP leaves fewer, and at 0 the
packet is retired. -/
theorem execution_ends {s : State} (d : Nat) (hd : streamLength s.pkt - s.pkt.currentPos.toNat ≤ d)
    (hw : s.cmdIn.Wf s.cfg.nCmdIn) (he : s.pkt.expectedLength.toNat ≤ inCount s) (hsched : s.env.schedule = [])
    (hp : phaseOf s.pkt = some .executing) :
    ∃ n t, n ≤ d + 1 ∧ Host.Core.run core n s = .next t ∧ phaseOf t.pkt = some .idle ∧
      t.pkt.status = .parsed ∧ inContent t = (inContent s).drop s.pkt.expectedLength.toNat := by
  induction d generalizing s with
  | zero =>
    obtain ⟨t, hstep, hcontent, hpkt, hphase, _⟩ := finishedPacketRetires s hw hp (by omega) he
    obtain ⟨_, hstatus, _⟩ := phaseOf_executing hp
    exact ⟨1, t, le_refl _, run_succ_of_engineStep 0 hsched hstep, hphase, by simp [hpkt, hstatus], hcontent⟩
  | succ d ih =>
    by_cases hc : s.pkt.currentPos.toNat < streamLength s.pkt
    · obtain ⟨t, hstep⟩ := engineStep_executing_answers hp hc he
      have hleaves := execStep_leaves hp hc hstep
      have hlength := hleaves.expectedLength
      have hforward := hleaves.forward
      have hd' : streamLength t.pkt - t.pkt.currentPos.toNat ≤ d := by
        rw [streamLength, hlength]
        unfold streamLength at hd
        omega
      obtain ⟨n, u, hn, hrun, hphase, hstatus, hcontent⟩ := ih hd' (by rw [hleaves.cmdIn, hleaves.cfg]; exact hw)
        (by rw [hlength, hleaves.inCount]; exact he) (hleaves.schedule.trans hsched) (hleaves.phase hp)
      rw [hlength, hleaves.inContent] at hcontent
      exact ⟨n + 1, u, by omega, (run_succ_of_engineStep n hsched hstep).trans hrun, hphase, hstatus, hcontent⟩
    · obtain ⟨n, t, hn, hrest⟩ := ih (by omega) hw he hsched hp
      exact ⟨n, t, by omega, hrest⟩

/-- Settles O32: the invariant has the packet buffered, so its execution ends. -/
theorem packetExecutionEnds : Obligations.PacketExecutionEnds := by
  intro s hinv hsched hp
  obtain ⟨_, hw, _, _, hbuffered⟩ := hinv
  exact execution_ends _ (le_refl _) hw (hbuffered hp) hsched hp

end Sys2Proof.Machine
end

section
/-!
PROOFS. The statements over every step of every agent: who changes the mode, the status, the parameters and the history,
and the order in which cmdIn is consumed. Each is read off the transitions of the engine (EngineDoes) and the two moves.
-/

namespace Sys2Proof.Machine

/-! ### What the other agents and the info reply leave -/

@[simp] theorem pushInbound_transportMode (bytes : List Byte) (s : State) :
    (pushInbound bytes s).transportMode = s.transportMode := by
  unfold pushInbound; split <;> rfl

@[simp] theorem pushInbound_cmdOut (bytes : List Byte) (s : State) : (pushInbound bytes s).cmdOut = s.cmdOut := by
  unfold pushInbound; split <;> rfl

@[simp] theorem pushInbound_env (bytes : List Byte) (s : State) : (pushInbound bytes s).env = s.env := by
  unfold pushInbound; split <;> rfl

theorem pushInbound_history (bytes : List Byte) (s : State) : s.history <+: (pushInbound bytes s).history := by
  unfold pushInbound
  split
  · exact List.prefix_refl _
  · exact List.prefix_append _ _

@[simp] theorem infoReply_cmdIn (s : State) : (infoReply s).cmdIn = s.cmdIn := pushResponse_cmdIn _ s
@[simp] theorem infoReply_transportMode (s : State) : (infoReply s).transportMode = s.transportMode :=
  pushResponse_transportMode _ s
@[simp] theorem infoReply_cfg (s : State) : (infoReply s).cfg = s.cfg := pushResponse_cfg _ s
@[simp] theorem infoReply_env (s : State) : (infoReply s).env = s.env := pushResponse_env _ s
@[simp] theorem infoReply_history (s : State) :
    (infoReply s).history = s.history ++ dropEvents s (infoReplyBytes s) := pushResponse_history _ s
@[simp] theorem infoReply_pkt (s : State) : (infoReply s).pkt = { s.pkt with type := .empty } := by simp [infoReply]

/-! ### The mode, the status, the parameters and the history -/

/-- R26: of the engine's transitions only SET_PROG_MODE changes the mode. -/
theorem EngineDoes.mode_changes {s t : State} (h : EngineDoes s t) (hmode : t.transportMode ≠ s.transportMode) :
    phaseOf s.pkt = some .executing ∧ ∃ m rest, fetchUnit s = .next (.unit (.setProgMode m) rest) := by
  cases h with
  | unit i rest m evs e r hp _ hfetch heffect =>
    obtain ⟨b, rfl⟩ := heffect.mode (by simpa using hmode)
    exact ⟨hp, b, rest, hfetch⟩
  | infoReply => exact absurd (infoReply_transportMode s) hmode
  | _ => exact absurd rfl hmode

/-- Settles O54: the other agents leave the mode. -/
theorem onlySetProgModeChangesMode : Obligations.OnlySetProgModeChangesMode := by
  intro s t h hmode
  rcases step_eq_next h with ⟨_, hengine⟩ | ⟨bytes, _, rfl⟩ | ⟨n, _, hdrain⟩
  · exact (engineStep_does hengine).mode_changes hmode
  · exact absurd (pushInbound_transportMode bytes _) hmode
  · rw [drainOutbound_eq] at hdrain
    cases hdrain
    exact absurd rfl hmode

/-- R34: of the engine's transitions only SCAN-PACKET and CHECKSUM change the status. -/
theorem EngineDoes.status_changes {s t : State} (h : EngineDoes s t) (hstatus : t.pkt.status ≠ s.pkt.status) :
    (phaseOf s.pkt = some .idle ∧ t.pkt.status = .ok ∧ phaseOf t.pkt = some .awaitLength) ∨
    (phaseOf s.pkt = some .awaitBody ∧ (t.pkt.status = .parsed ∨ t.pkt.status = .error)) := by
  cases h with
  | scanPacket hp => exact .inl ⟨hp, rfl, rfl⟩
  | accept hp => exact .inr ⟨hp, .inl rfl⟩
  | discard _ _ hp => exact .inr ⟨hp, .inr rfl⟩
  | infoReply => simp at hstatus
  | unit => simp [pastBytes] at hstatus
  | _ => exact absurd rfl hstatus

/-- Settles O55: the other agents leave PacketState. -/
theorem onlyFramerWritesStatus : Obligations.OnlyFramerWritesStatus := by
  intro s t h hstatus
  rcases step_eq_next h with ⟨_, hengine⟩ | ⟨bytes, _, rfl⟩ | ⟨n, _, hdrain⟩
  · exact (engineStep_does hengine).status_changes hstatus
  · exact absurd (congrArg PacketState.status (pushInbound_pkt bytes _)) hstatus
  · rw [drainOutbound_eq] at hdrain
    cases hdrain
    exact absurd rfl hstatus

theorem EngineDoes.cfg_eq {s t : State} (h : EngineDoes s t) : t.cfg = s.cfg := by
  cases h with
  | infoReply => exact infoReply_cfg s
  | unit => simp
  | _ => rfl

theorem EngineDoes.history_grows {s t : State} (h : EngineDoes s t) : s.history <+: t.history := by
  cases h with
  | infoReply => exact infoReply_history s ▸ List.prefix_append _ _
  | unit i rest m evs e r =>
    obtain ⟨drops, hhist, _⟩ := answered_history r (unitState s m evs e)
    exact ⟨evs ++ drops, by simp [hhist]⟩
  | discard => exact List.prefix_append _ _
  | truncated => exact List.prefix_append _ _
  | _ => exact List.prefix_refl _

/-- Settles O56: by the agent that moves. -/
theorem parametersStayHistoryGrows : Obligations.ParametersStayHistoryGrows := by
  intro s t h
  rcases step_eq_next h with ⟨_, hengine⟩ | ⟨bytes, _, rfl⟩ | ⟨n, _, hdrain⟩
  · exact ⟨(engineStep_does hengine).cfg_eq, (engineStep_does hengine).history_grows⟩
  · exact ⟨pushInbound_cfg bytes _, pushInbound_history bytes (takeMove s)⟩
  · rw [drainOutbound_eq] at hdrain
    cases hdrain
    exact ⟨rfl, List.prefix_refl _⟩

/-! ### The rings -/

/-- R108: a transition of the engine leaves cmdIn as it is, or consumes bytes that were buffered. -/
theorem EngineDoes.cmdIn_cases {s t : State} (h : EngineDoes s t) :
    t.cmdIn = s.cmdIn ∨ ∃ n ≤ inCount s, t.cmdIn = s.cmdIn.popped s.cfg.nCmdIn n := by
  cases h with
  | scanPacket _ _ hk => exact .inr ⟨_, hk, rfl⟩
  | scanInfo _ _ hk => exact .inr ⟨_, hk, rfl⟩
  | lengthRead _ hn => exact .inr ⟨2, hn, rfl⟩
  | discard _ _ _ hn => exact .inr ⟨_, hn, rfl⟩
  | retire _ _ hn => exact .inr ⟨_, hn, rfl⟩
  | infoReply => exact .inl (infoReply_cmdIn s)
  | unit => exact .inl (by simp)
  | _ => exact .inl rfl

/-- Settles O57: what is consumed is dropped from the front of the content. -/
theorem engineConsumesInOrder : Obligations.EngineConsumesInOrder := by
  intro s t hw h
  have hdoes := engineStep_does h
  rcases hdoes.cmdIn_cases with hsame | ⟨n, hn, hpopped⟩
  · rw [inContent, hsame, hdoes.cfg_eq]
    exact ⟨rfl, rfl, List.suffix_refl _⟩
  · have hcontent : inContent t = (inContent s).drop n := by
      rw [inContent, hpopped, hdoes.cfg_eq]
      exact Ring.popped_content (k := s.cfg.cmdInLog) hw hn
    rw [hcontent, hpopped]
    exact ⟨rfl, rfl, List.drop_suffix n _⟩

/-- R112: a transition of the engine keeps cmdOut well-formed, and its content only grows at its end. -/
theorem EngineDoes.cmdOut_grows {s t : State} (h : EngineDoes s t) (hw : s.cmdOut.Wf s.cfg.nCmdOut) :
    t.cmdOut.Wf s.cfg.nCmdOut ∧ outContent s <+: outContent t := by
  cases h with
  | infoReply =>
    exact ⟨pushResponse_wf hw _, answered_outContent hw (some (infoReplyBytes s))⟩
  | unit i rest m evs e r =>
    exact ⟨answered_wf (s := unitState s m evs e) hw r, answered_outContent (s := unitState s m evs e) hw r⟩
  | _ => exact ⟨hw, List.prefix_refl _⟩

theorem EngineDoes.drained_eq {s t : State} (h : EngineDoes s t) : t.env.drained = s.env.drained := by
  cases h with
  | infoReply => rw [infoReply_env]
  | unit i rest m evs e r _ _ _ heffect => simpa using heffect.drained
  | _ => rfl

/-- Settles O14: the engine adds at the end of cmdOut, and a drain moves bytes from its front to the drained ones. -/
theorem outputIsNeverLostOrReordered : Obligations.OutputIsNeverLostOrReordered := by
  intro s t hinv h
  obtain ⟨_, _, hout, _, _⟩ := hinv
  rcases step_eq_next h with ⟨_, hengine⟩ | ⟨bytes, _, rfl⟩ | ⟨n, _, hdrain⟩
  · have hdoes := engineStep_does hengine
    obtain ⟨_, hgrows⟩ := hdoes.cmdOut_grows hout
    rw [hdoes.drained_eq]
    exact (List.prefix_append_right_inj _).2 hgrows
  · rw [outContent, outContent, pushInbound_cmdOut, pushInbound_cfg, pushInbound_env]
    exact List.prefix_refl _
  · obtain ⟨u, hu, hdrained, hcontent, _⟩ := drainOutboundReturnsOldest (takeMove s) n hout
    cases hu.symm.trans hdrain
    rw [hdrained, hcontent, List.append_assoc, List.take_append_drop]
    exact List.prefix_refl _

end Sys2Proof.Machine
end

section
/-!
PROOFS. The statements about the invariant Inv: every step keeps it, no step from it stops, and the two ways in which a
step can stop in any state.
-/

namespace Sys2Proof.Machine

/-! ### Every step keeps the invariant -/

/-- R24, R61: a state in a phase of R24, with the packet buffered where that phase is Executing. -/
structure PhaseOk (t : State) : Prop where
  row : (phaseOf t.pkt).isSome = true
  buffered : StreamBuffered t

theorem PhaseOk.of_phase {t : State} {ph : Phase} (hp : phaseOf t.pkt = some ph) (hne : ph ≠ .executing) :
    PhaseOk t :=
  ⟨by rw [hp]; rfl, fun h => absurd (Option.some.inj (hp.symm.trans h)) hne⟩

theorem PhaseOk.of_executing {t : State} (hp : phaseOf t.pkt = some .executing)
    (hn : t.pkt.expectedLength.toNat ≤ inCount t) : PhaseOk t :=
  ⟨by rw [hp]; rfl, fun _ => hn⟩

theorem ExecStepLeaves.phaseOk {s t : State} (h : ExecStepLeaves s t) (hp : phaseOf s.pkt = some .executing)
    (hs : PhaseOk s) : PhaseOk t :=
  .of_executing (h.phase hp) (by rw [h.expectedLength, h.inCount]; exact hs.buffered hp)

/-- R24, R61, R93: a transition of the engine leads from a row of R24 to a row of R24, and keeps the packet buffered. -/
theorem engineStep_phaseOk {s t : State} (hs : PhaseOk s) (h : engineStep s = .next t) : PhaseOk t := by
  cases engineStep_does h with
  | suspend => exact hs
  | scanPacket => exact .of_phase (ph := .awaitLength) rfl (by decide)
  | scanInfo hp => exact .of_phase (phaseOf_info_of_idle hp) (by decide)
  | infoReply hp =>
    obtain ⟨_, hstatus, hlength, hpos⟩ := phaseOf_infoDue hp
    exact .of_phase (ph := .idle) (by rw [infoReply_pkt]; exact phaseOf_idle_intro rfl hstatus hlength hpos) (by decide)
  | lengthRead hp =>
    have hphase := phaseOf_expectedLength hp (BitVec.ofNat 16 (leNat ((inContent s).take 2)))
    split_ifs at hphase
    · exact .of_phase hphase (by decide)
    · exact .of_phase hphase (by decide)
  | accept hp hn => exact .of_executing (phaseOf_accepted (k := s.pkt) hp) hn
  | discard => exact .of_phase (ph := .idle) rfl (by decide)
  | unit _ _ _ _ _ _ hp hc => exact (execStep_leaves hp hc h).phaseOk hp hs
  | truncated _ hp hc => exact (execStep_leaves hp hc h).phaseOk hp hs
  | retire hp => exact .of_phase (phaseOf_retired hp) (by decide)

theorem engineStep_inv {s t : State} (hinv : Inv s) (h : engineStep s = .next t) : Inv t := by
  obtain ⟨hcfg, hin, hout, hrow, hbuffered⟩ := hinv
  have hdoes := engineStep_does h
  obtain ⟨hout', _⟩ := hdoes.cmdOut_grows hout
  obtain ⟨hrow', hbuffered'⟩ := engineStep_phaseOk ⟨hrow, hbuffered⟩ h
  have hin' : t.cmdIn.Wf s.cfg.nCmdIn := by
    rcases hdoes.cmdIn_cases with hsame | ⟨n, _, hpopped⟩
    · rwa [hsame]
    · rw [hpopped]
      exact Ring.popped_wf (k := s.cfg.cmdInLog) hin n
  refine ⟨?_, ?_, ?_, hrow', hbuffered'⟩
  · rwa [hdoes.cfg_eq]
  · rwa [hdoes.cfg_eq]
  · rwa [hdoes.cfg_eq]

theorem pushInbound_inv {s : State} (hinv : Inv s) (bytes : List Byte) : Inv (pushInbound bytes s) := by
  obtain ⟨hcfg, hin, hout, hrow, hbuffered⟩ := hinv
  by_cases hfits : bytes.length ≤ s.cmdIn.spaceLeft s.cfg.nCmdIn
  · rw [pushInbound_fits hfits]
    refine ⟨hcfg, Ring.pushed_wf (k := s.cfg.cmdInLog) hin bytes, hout, hrow, fun hp => ?_⟩
    exact (hbuffered hp).trans ((Nat.le_add_right _ _).trans_eq
      (Ring.pushed_occupied (k := s.cfg.cmdInLog) hin hfits).symm)
  · rw [pushInbound_overflows (by omega)]
    exact ⟨hcfg, hin, hout, hrow, hbuffered⟩

theorem drainOutbound_inv {s t : State} {n : Nat} (hinv : Inv s) (h : drainOutbound n s = .next t) : Inv t := by
  obtain ⟨hcfg, hin, hout, hrow, hbuffered⟩ := hinv
  rw [drainOutbound_eq] at h
  cases h
  exact ⟨hcfg, hin, Ring.popped_wf (k := s.cfg.cmdOutLog) hout _, hrow, hbuffered⟩

/-- Settles O3, by the agent that moves. -/
theorem stepKeepsInvariant : Obligations.StepKeepsInvariant := by
  intro s t hinv h
  have hinv' : Inv (takeMove s) := hinv
  rcases step_eq_next h with ⟨_, hengine⟩ | ⟨bytes, _, rfl⟩ | ⟨n, _, hdrain⟩
  · exact engineStep_inv hinv' hengine
  · exact pushInbound_inv hinv' bytes
  · exact drainOutbound_inv hinv' hdrain

/-! ### When a step stops -/

/-- R44: a Peek of cmdIn answers, or is RingUnderflow of cmdIn. -/
theorem peekIn_cases (off n : Nat) (s : State) :
    (∃ bytes, peekIn off n s = .next bytes) ∨ ∃ k, peekIn off n s = .fault (.ringUnderflow .cmdIn k) := by
  by_cases h : off + n ≤ inCount s
  · exact .inl ⟨_, peekIn_eq h⟩
  · exact .inr ⟨_, Ring.peek_underflow .cmdIn (Nat.lt_of_not_le h)⟩

theorem fetchUnit_cases (s : State) :
    (∃ d, fetchUnit s = .next d) ∨ ∃ k, fetchUnit s = .fault (.ringUnderflow .cmdIn k) := by
  unfold fetchUnit
  rcases peekIn_cases s.pkt.currentPos.toNat 1 s with ⟨first, hfirst⟩ | ⟨k, hfirst⟩
  · rw [hfirst, andThen_next]
    cases opcodeOfByte s.cfg (first.headD 0) with
    | none => exact .inl ⟨_, rfl⟩
    | some op =>
      simp only
      split_ifs
      · exact .inl ⟨_, rfl⟩
      · rcases peekIn_cases s.pkt.currentPos.toNat (1 + operandBytes op) s with ⟨bytes, hunit⟩ | ⟨k, hunit⟩
        · exact .inl ⟨_, by rw [hunit, andThen_next]⟩
        · exact .inr ⟨k, by rw [hunit, andThen_fault]⟩
  · exact .inr ⟨k, by rw [hfirst, andThen_fault]⟩

theorem executorStep_cases (s : State) :
    (∃ t, executorStep s = .next t) ∨ ∃ k, executorStep s = .fault (.ringUnderflow .cmdIn k) := by
  unfold executorStep
  rcases fetchUnit_cases s with ⟨d, hfetch⟩ | ⟨k, hfetch⟩
  · rw [hfetch, andThen_next]
    cases d with
    | unit i rest =>
      obtain ⟨_, _, hunit⟩ := fetchUnit_next hfetch
      obtain ⟨m, evs, e, r, _, hexec⟩ := exec_unit (hunit i rest rfl).1 s
      exact .inl ⟨_, hexec⟩
    | truncated op => exact .inl ⟨_, rfl⟩
    | noByte => exact .inr ⟨_, rfl⟩
  · exact .inr ⟨k, by rw [hfetch, andThen_fault]⟩

/-- R101, R102: the stream and the checksum byte of a packet whose bytes are buffered. -/
theorem packet_buffered {s : State} (hp : phaseOf s.pkt = some .awaitBody)
    (hn : s.pkt.expectedLength.toNat ≤ inCount s) :
    ∃ stream c rest, inContent s = stream ++ c :: rest ∧ stream.length + 1 = s.pkt.expectedLength.toNat := by
  obtain ⟨_, _, hlength, _⟩ := phaseOf_awaitBody hp
  have hpos : s.pkt.expectedLength.toNat ≠ 0 := fun h => hlength (BitVec.eq_of_toNat_eq h)
  have hlast : s.pkt.expectedLength.toNat - 1 < (inContent s).length := by rw [inContent_length]; omega
  have hsplit := List.take_append_drop (s.pkt.expectedLength.toNat - 1) (inContent s)
  rw [List.drop_eq_getElem_cons hlast] at hsplit
  refine ⟨_, _, _, hsplit.symm, ?_⟩
  rw [List.length_take_of_le hlast.le]
  omega

theorem engineStep_idle_answers {s : State} (hp : phaseOf s.pkt = some .idle) : ∃ t, engineStep s = .next t := by
  cases hfirst : firstMarker s with
  | none => exact ⟨_, engineStep_of_suspended (suspended_of_idle hp hfirst)⟩
  | some i =>
    rw [engineStep_of_firstMarker hp hfirst]
    rcases firstMarker_cases hfirst with rfl | rfl
    · exact ⟨_, execPacket_eq (strayCount_lt hfirst)⟩
    · exact ⟨_, execInfo_eq (strayCount_lt hfirst)⟩

theorem engineStep_awaitLength_answers {s : State} (hp : phaseOf s.pkt = some .awaitLength) :
    ∃ t, engineStep s = .next t := by
  by_cases hn : inCount s < 2
  · exact ⟨_, engineStep_of_suspended (suspended_of_awaitLength hp hn)⟩
  · exact ⟨_, engineStep_lengthRead hp (Nat.le_of_not_lt hn)⟩

theorem engineStep_awaitBody_answers {s : State} (hp : phaseOf s.pkt = some .awaitBody) :
    ∃ t, engineStep s = .next t := by
  by_cases hn : inCount s < s.pkt.expectedLength.toNat
  · exact ⟨_, engineStep_of_suspended (suspended_of_awaitBody hp hn)⟩
  · have hn' := Nat.le_of_not_lt hn
    obtain ⟨stream, c, rest, hc, hlen⟩ := packet_buffered hp hn'
    rw [engineStep_checksum hp hc hlen, discardPacket_eq _ _ hn']
    split_ifs <;> exact ⟨_, rfl⟩

theorem engineStep_executing_cases {s : State} (hp : phaseOf s.pkt = some .executing) :
    (∃ t, engineStep s = .next t) ∨
      ∃ k, engineStep s = .fault (.ringUnderflow .cmdIn k) ∧ inCount s < s.pkt.expectedLength.toNat := by
  by_cases hn : s.pkt.expectedLength.toNat ≤ inCount s
  · by_cases hc : s.pkt.currentPos.toNat < streamLength s.pkt
    · exact .inl (engineStep_executing_answers hp hc hn)
    · exact .inl ⟨_, engineStep_retire hp (Nat.le_of_not_lt hc) hn⟩
  · have hshort := Nat.lt_of_not_le hn
    by_cases hc : s.pkt.currentPos.toNat < streamLength s.pkt
    · rw [engineStep_executing hp hc]
      exact (executorStep_cases s).imp_right fun ⟨k, hk⟩ => ⟨k, hk, hshort⟩
    · refine .inr ⟨s.pkt.expectedLength.toNat, ?_, hshort⟩
      simp only [engineStep, hp, if_neg hc, retire, popIn_underflow hshort]
      rfl

/-- R93, R161: the engine's transition answers, or pops beyond a packet that is not buffered, or stands in no row of
R24. -/
theorem engineStep_cases (s : State) :
    (∃ t, engineStep s = .next t) ∨
    (∃ k, engineStep s = .fault (.ringUnderflow .cmdIn k) ∧
      phaseOf s.pkt = some .executing ∧ inCount s < s.pkt.expectedLength.toNat) ∨
    (engineStep s = .refused .unreachablePacketState ∧ phaseOf s.pkt = none) := by
  cases hp : phaseOf s.pkt with
  | none => exact .inr (.inr ⟨by simp only [engineStep, hp], rfl⟩)
  | some ph =>
    cases ph with
    | idle => exact .inl (engineStep_idle_answers hp)
    | infoDue => exact .inl ⟨_, engineStep_of_infoDue hp⟩
    | awaitLength => exact .inl (engineStep_awaitLength_answers hp)
    | awaitBody => exact .inl (engineStep_awaitBody_answers hp)
    | executing =>
      exact (engineStep_executing_cases hp).imp_right fun ⟨k, hk, hshort⟩ => .inl ⟨k, hk, rfl, hshort⟩

/-- R170: pushInbound and drainOutbound always answer, so only the engine's move can stop a step. -/
theorem step_answers_or_engine (s : State) : Answers s ∨ step s = engineStep (takeMove s) := by
  cases hmove : nextMove s with
  | engine => exact .inr (step_of_engine_next hmove)
  | pushInbound bytes => exact .inl ⟨_, by rw [step, hmove]; rfl⟩
  | drainOutbound n => exact .inl ⟨_, by rw [step, hmove]; exact drainOutbound_eq n _⟩

/-- Settles O4: the invariant excludes both ways in which the engine's transition stops. -/
theorem stepNeverStops : Obligations.StepNeverStops := by
  intro s hinv
  obtain ⟨_, _, _, hrow, hbuffered⟩ := hinv
  rcases step_answers_or_engine s with hanswers | hengine
  · exact hanswers
  · rcases engineStep_cases (takeMove s) with ⟨t, ht⟩ | ⟨k, _, hp, hshort⟩ | ⟨_, hnone⟩
    · exact ⟨t, hengine.trans ht⟩
    · exact absurd (hbuffered hp) (Nat.not_le.2 hshort)
    · rw [show phaseOf s.pkt = none from hnone] at hrow
      cases hrow

/-- Settles O5: the engine's transition has two ways to stop, and the other agents none. -/
theorem onlyTwoReasonsToStop : Obligations.OnlyTwoReasonsToStop := by
  intro s
  rcases step_answers_or_engine s with ⟨t, ht⟩ | hengine
  · rw [ht]
    exact ⟨fun f h => (nomatch h), fun r h => (nomatch h)⟩
  · rw [hengine]
    rcases engineStep_cases (takeMove s) with ⟨t, ht⟩ | ⟨k, hk, _⟩ | ⟨hr, hnone⟩
    · rw [ht]
      exact ⟨fun f h => (nomatch h), fun r h => (nomatch h)⟩
    · rw [hk]
      exact ⟨fun f h => ⟨k, by cases h; rfl⟩, fun r h => (nomatch h)⟩
    · rw [hr]
      exact ⟨fun f h => (nomatch h), fun r h => ⟨by cases h; rfl, hnone⟩⟩

end Sys2Proof.Machine
end

section
/-!
PROOFS. The statement that bytes arriving in cmdIn do not change what the engine does with those before them (R107):
what each transition reads of cmdIn is the same, and what it leaves differs by the arrived bytes alone.
-/

namespace Sys2Proof.Machine

/-- R45: the state in which `bytes`, which fit, have arrived. -/
abbrev arrived (bytes : List Byte) (s : State) : State := s.setCmdIn (s.cmdIn.pushed s.cfg.nCmdIn bytes)

section Arrival

variable {s t : State} {bytes : List Byte}

theorem inContent_arrived (hw : s.cmdIn.Wf s.cfg.nCmdIn) (hfits : bytes.length ≤ s.cmdIn.spaceLeft s.cfg.nCmdIn) :
    inContent (arrived bytes s) = inContent s ++ bytes := Ring.pushed_content (k := s.cfg.cmdInLog) hw hfits

theorem inCount_arrived (hw : s.cmdIn.Wf s.cfg.nCmdIn) (hfits : bytes.length ≤ s.cmdIn.spaceLeft s.cfg.nCmdIn) :
    inCount s ≤ inCount (arrived bytes s) := by
  rw [← inContent_length, ← inContent_length, inContent_arrived hw hfits, List.length_append]
  omega

/-- The bytes arrive behind a transition that left cmdIn as it was. -/
theorem pushInbound_of_same_cmdIn (hfits : bytes.length ≤ s.cmdIn.spaceLeft s.cfg.nCmdIn) (hin : t.cmdIn = s.cmdIn)
    (hcfg : t.cfg = s.cfg) : pushInbound bytes t = t.setCmdIn (arrived bytes s).cmdIn := by
  rw [pushInbound_fits (by rwa [hin, hcfg]), hin, hcfg]
  rfl

/-- The bytes arrive behind a transition that consumed `n` bytes: the same as if it had consumed them afterwards. -/
theorem pushInbound_of_popped_cmdIn {n : Nat} (hw : s.cmdIn.Wf s.cfg.nCmdIn)
    (hfits : bytes.length ≤ s.cmdIn.spaceLeft s.cfg.nCmdIn) (hn : n ≤ inCount s)
    (hin : t.cmdIn = s.cmdIn.popped s.cfg.nCmdIn n) (hcfg : t.cfg = s.cfg) :
    pushInbound bytes t = t.setCmdIn (consumed n (arrived bytes s)).cmdIn := by
  have hocc : (s.cmdIn.popped s.cfg.nCmdIn n).occupied s.cfg.nCmdIn = s.cmdIn.occupied s.cfg.nCmdIn - n :=
    Ring.popped_occupied (k := s.cfg.cmdInLog) hw hn
  have hspace : bytes.length ≤ (s.cmdIn.popped s.cfg.nCmdIn n).spaceLeft s.cfg.nCmdIn := by
    rw [Ring.spaceLeft, hocc]
    rw [Ring.spaceLeft] at hfits
    omega
  rw [pushInbound_fits (by rwa [hin, hcfg]), hin, hcfg]
  rfl

/-- R93, R107: the first marker stays the first, behind the same stray bytes. -/
theorem firstMarker_arrived {i : Instr} (hw : s.cmdIn.Wf s.cfg.nCmdIn)
    (hfits : bytes.length ≤ s.cmdIn.spaceLeft s.cfg.nCmdIn) (h : firstMarker s = some i) :
    firstMarker (arrived bytes s) = some i ∧ strayCount (arrived bytes s) = strayCount s := by
  have hlt := strayCount_lt h
  rw [← inContent_length] at hlt
  constructor
  · rw [firstMarker, inContent_arrived hw hfits, List.findSome?_append, State.setCmdIn_cfg,
      show (inContent s).findSome? (decodeMarker s.cfg) = some i from h, Option.some_or]
  · rw [strayCount, inContent_arrived hw hfits, List.findIdx_append]
    exact if_pos hlt

/-- R109, R107: the unit at currentPos is the same. -/
theorem fetchUnit_arrived (hw : s.cmdIn.Wf s.cfg.nCmdIn) (hfits : bytes.length ≤ s.cmdIn.spaceLeft s.cfg.nCmdIn)
    (hc : s.pkt.currentPos.toNat < streamLength s.pkt) (he : s.pkt.expectedLength.toNat ≤ inCount s) :
    fetchUnit (arrived bytes s) = fetchUnit s := by
  have hleft : streamLeft (arrived bytes s) = streamLeft s := by
    have hL : streamLength s.pkt ≤ (inContent s).length := by rw [inContent_length]; unfold streamLength; omega
    rw [streamLeft, inContent_arrived hw hfits, State.setCmdIn_pkt, List.drop_append_of_le_length (by omega),
      List.take_append_of_le_length (by rw [List.length_drop]; omega)]
    rfl
  rw [fetchUnit_eq hc he, fetchUnit_eq (s := arrived bytes s) hc (he.trans (inCount_arrived hw hfits)), hleft]
  rfl

/-- R102, R107: the checksum is taken over the same bytes. -/
theorem checksum_commutes_with_arrival (hw : s.cmdIn.Wf s.cfg.nCmdIn)
    (hfits : bytes.length ≤ s.cmdIn.spaceLeft s.cfg.nCmdIn) (hp : phaseOf s.pkt = some .awaitBody)
    (hn : s.pkt.expectedLength.toNat ≤ inCount s) (h : engineStep s = .next t) :
    engineStep (arrived bytes s) = .next (pushInbound bytes t) := by
  obtain ⟨stream, c, rest, hcontent, hlen⟩ := packet_buffered hp hn
  have hcontent' : inContent (arrived bytes s) = stream ++ c :: (rest ++ bytes) := by
    rw [inContent_arrived hw hfits, hcontent, List.append_assoc, List.cons_append]
  rw [engineStep_checksum hp hcontent hlen, discardPacket_eq _ _ hn] at h
  rw [engineStep_checksum (s := arrived bytes s) hp hcontent' hlen,
    discardPacket_eq (s := arrived bytes s) _ _ (hn.trans (inCount_arrived hw hfits))]
  split_ifs at h ⊢ with hsum
  · cases h
    rw [pushInbound_of_same_cmdIn (t := acceptPacket s) hfits rfl rfl]
    rfl
  · cases h
    rw [pushInbound_of_popped_cmdIn hw hfits hn (by rfl) (by rfl)]
    rfl

/-- R107, by the transition: of the bytes buffered before, each reads and consumes the same. -/
theorem engineStep_commutes_with_arrival (hw : s.cmdIn.Wf s.cfg.nCmdIn)
    (hfits : bytes.length ≤ s.cmdIn.spaceLeft s.cfg.nCmdIn) (hbuffered : StreamBuffered s)
    (hactive : suspended s = false) (h : engineStep s = .next t) :
    engineStep (arrived bytes s) = .next (pushInbound bytes t) := by
  have hmore := inCount_arrived hw hfits
  cases engineStep_does h with
  | suspend hsusp => exact absurd hsusp (by rw [hactive]; decide)
  | scanPacket hp hfirst hk =>
    obtain ⟨hfirst', hcount'⟩ := firstMarker_arrived hw hfits hfirst
    rw [pushInbound_of_popped_cmdIn hw hfits hk (by rfl) (by rfl),
      engineStep_of_firstMarker (s := arrived bytes s) hp hfirst', exec, execPacket_eq (strayCount_lt hfirst'), hcount']
    rfl
  | scanInfo hp hfirst hk =>
    obtain ⟨hfirst', hcount'⟩ := firstMarker_arrived hw hfits hfirst
    rw [pushInbound_of_popped_cmdIn hw hfits hk (by rfl) (by rfl),
      engineStep_of_firstMarker (s := arrived bytes s) hp hfirst', exec, execInfo_eq (strayCount_lt hfirst'), hcount']
    rfl
  | infoReply hp =>
    rw [pushInbound_of_same_cmdIn hfits (infoReply_cmdIn s) (infoReply_cfg s),
      engineStep_of_infoDue (s := arrived bytes s) hp, infoReply, show infoReplyBytes (arrived bytes s) =
        infoReplyBytes s from rfl, pushResponse_setCmdIn]
    rfl
  | lengthRead hp hn =>
    rw [pushInbound_of_popped_cmdIn hw hfits hn (by rfl) (by rfl),
      engineStep_lengthRead (s := arrived bytes s) hp (hn.trans hmore), inContent_arrived hw hfits,
      List.take_append_of_le_length (by rwa [inContent_length])]
    rfl
  | accept hp hn => exact checksum_commutes_with_arrival hw hfits hp hn h
  | discard _ _ hp hn => exact checksum_commutes_with_arrival hw hfits hp hn h
  | unit i rest m evs e r hp hc hfetch _ hexec =>
    obtain ⟨_, _, hunit⟩ := fetchUnit_next hfetch
    obtain ⟨hi, _⟩ := hunit i rest rfl
    rw [pushInbound_of_same_cmdIn (s := s) hfits (by simp) (by simp),
      engineStep_executing (s := arrived bytes s) hp hc, executorStep,
      fetchUnit_arrived hw hfits hc (hbuffered hp), hfetch]
    exact exec_setCmdIn hi _ hexec
  | truncated op hp hc hfetch =>
    rw [pushInbound_of_same_cmdIn (t := truncateScan op s) hfits rfl rfl,
      engineStep_executing (s := arrived bytes s) hp hc, executorStep,
      fetchUnit_arrived hw hfits hc (hbuffered hp), hfetch]
    rfl
  | retire hp hc hn =>
    rw [pushInbound_of_popped_cmdIn hw hfits hn (by rfl) (by rfl),
      engineStep_retire (s := arrived bytes s) hp hc (hn.trans hmore)]
    rfl

end Arrival

/-- Settles O15: the push that fits is the arrival. -/
theorem arrivalCommutesWithEngine : Obligations.ArrivalCommutesWithEngine := by
  intro s t bytes hinv hactive hfits h
  obtain ⟨_, hw, _, _, hbuffered⟩ := hinv
  rw [pushInbound_fits hfits]
  exact engineStep_commutes_with_arrival hw hfits hbuffered hactive h

end Sys2Proof.Machine
end
